-- ==== Sys2Proof/Word.lean ====
section
/-! DEFINITION. The block's value types (00_scope.md R9, R10, R14): every value is unsigned, bit 0 is the least
significant bit. -/

namespace Sys2Proof

/-- One byte of entropy, of a hash or of a ROM slot. -/
abbrev Byte := BitVec 8

/-- A 32-bit host data word (R10, R51). -/
abbrev Word := BitVec 32

/-- A 12-bit host byte address (R10, R50). -/
abbrev Addr := BitVec 12

/-- A 13-bit BUS transaction code `T = dir || addr` (R80). -/
abbrev BusCode := BitVec 13

/-- A 64-bit limb of the multi-limb integer (R9, R29). -/
abbrev Limb := BitVec 64

/-- An 11-bit word index, 0 to 2047 (R9). -/
abbrev Index := BitVec 11

/-- One 16-byte slot of the word-list ROM (R10, R170). -/
abbrev Slot := Vector Byte 16

end Sys2Proof
end

