-- ==== Sys2Proof/Config.lean ====
section
/-! DEFINITION. What is fixed for one block: the two modes and their constants (00_scope.md R5 to R7), and the three
parameters the spec leaves open, HASH256, WORDLIST and T_STEP (R8, R10; 92_eei_decisions.md, open parameters), which
are constants without a body: nothing can be proved of their values. -/

namespace Sys2Proof

/-- The two modes, named by the word count (R5). -/
inductive Mode
  /-- `n = 12` -/
  | w12
  /-- `n = 24` -/
  | w24
deriving DecidableEq, Repr

namespace Mode

/-- The word count `n`, the only mode parameter; the other constants are derived from it (R7). -/
def n : Mode → Nat
  | .w12 => 12
  | .w24 => 24

/-- `ENT`, the entropy bits (R6). -/
def ent (m : Mode) : Nat := 32 * m.n / 3

/-- `B`, the entropy bytes (R6). -/
def bytes (m : Mode) : Nat := m.ent / 8

/-- `k`, the 64-bit limbs (R6). -/
def limbs (m : Mode) : Nat := m.ent / 64

/-- `CS`, the checksum bits: what the identity `ENT + CS = 11 n` forces (R6, R7). -/
def cs (m : Mode) : Nat := 11 * m.n - m.ent

/-- `TOT`, the bits of the combined stream (R6). -/
def tot (m : Mode) : Nat := m.ent + m.cs

/-- `r`, the entropy bits in the last group (R6). -/
def r (m : Mode) : Nat := 11 - m.cs

/-- `RMASK`, the mask of the `r` low limb bits (R6). -/
def rmask (m : Mode) : Nat := 2 ^ m.r - 1

/-- The word count as ARG and NWORDS carry it, plain unsigned binary (R82, R88). -/
def words (m : Mode) : BitVec 8 := BitVec.ofNat 8 m.n

/-- `MASK(n)`, the exact value ENTV must have (R24, R104). -/
def mask : Mode → BitVec 8
  | .w12 => 0x0F
  | .w24 => 0xFF

/-- The mode a word count names; no other count has a meaning (R5). -/
def ofWords (w : BitVec 8) : Option Mode :=
  if w = 12 then some .w12 else if w = 24 then some .w24 else none

end Mode

namespace Config

/-- `HASH256 : ByteString -> Bytes[32]` (R8). The spec decides on SHA-256 and leaves its internals out of scope (R4):
a claim on checksum values names the property of this constant that it needs. -/
opaque hash256 : List Byte → Vector Byte 32

/-- `WORDLIST : Fin 2048 -> Bytes[16]`, the contents of the word-list ROM (R171, R172): total, never written. -/
opaque wordlist : Fin 2048 → Slot

/-- `T_STEP - 1`: the duration of a micro-step in clock cycles is open but at least 1 (R242). -/
opaque extraCycles : Nat

/-- `T_STEP >= 1`, the cycles of one micro-step (R242). It is no function of the data (R243); no step reads it. -/
def tStep : Nat := extraCycles + 1

end Config

/-- A slot holds a word of 1 to 16 printable ASCII bytes other than space, then only `0x00` bytes (R171 items 1, 2). -/
def slotWf (s : Slot) : Prop :=
  ∃ len : Nat, 1 ≤ len ∧ len ≤ 16 ∧
    ∀ k : Fin 16, if k.val < len then 0x21#8 ≤ s[k] ∧ s[k] ≤ 0x7E#8 else s[k] = 0x00#8

/-- A word list is well-formed: every slot is, and the 2048 words are pairwise distinct (R171). A claim about words, as
opposed to indices, takes this of its word list as a premise. -/
def wordlistWf (wl : Fin 2048 → Slot) : Prop :=
  (∀ i, slotWf (wl i)) ∧ ∀ i j, wl i = wl j → i = j

end Sys2Proof
end

