-- ==== Sys2Proof/Syntax.lean ====
section
/-! DEFINITION. The block's instructions: one constructor per row of spec/opcode_table.json. The CMD rows are host writes
of a command word to CMD, the BUS rows host transactions (30_encoding.md R80, R81, R90). -/

namespace Sys2Proof

inductive Instr
  /-- NOP, CMD word `0x00000000` (R102). -/
  | nop
  /-- CLEAR, CMD word `0x00000001` (R103). -/
  | clear
  /-- ENCODE n, CMD word `0x0000nn02` (R104). -/
  | encode (n : BitVec 8)
  /-- ENCODE.12, CMD word `0x00000C02` (R105). -/
  | encode12
  /-- ENCODE.24, CMD word `0x00001802` (R106). -/
  | encode24
  /-- ENTROPY_FAIL, CMD word `0x00000003` (R107). -/
  | entropyFail
  /-- WR_ENT j with write data `w` (R100). -/
  | wrEnt (j : Fin 8) (w : Word)
  /-- WR_CMD with the command word `w` as write data, legal or not (R101). -/
  | wrCmd (w : Word)
  /-- RD_STATUS (R109). -/
  | rdStatus
  /-- RD_IDX_LO: output position `i` in 0..15 (R90, R110). -/
  | rdIdxLo (i : Fin 24)
  /-- RD_IDX_HI: output position `i` in 16..23 (R90, R110). -/
  | rdIdxHi (i : Fin 24)
  /-- RD_WORD_LO: output position `i` in 0..15, quarter `q` of its slot (R90, R111). -/
  | rdWordLo (i : Fin 24) (q : Fin 4)
  /-- RD_WORD_HI: output position `i` in 16..23, quarter `q` of its slot (R90, R111). -/
  | rdWordHi (i : Fin 24) (q : Fin 4)
deriving DecidableEq, Repr

end Sys2Proof
end

