-- ==== Sys2Proof/WellFormed.lean ====
section
/-! DEFINITION. Which instructions are the reading of some encoding. -/

namespace Sys2Proof

/-- The checks on an instruction's operands: an ENCODE word with ARG 12 or 24 is spelled by its exact row ENCODE.12 or
ENCODE.24 (R81), and a LO row names a position below 16, a HI row one from 16 on (R90). -/
def Instr.wf : Instr → Bool
  | .nop => true
  | .clear => true
  | .encode n => n != 12 && n != 24
  | .encode12 => true
  | .encode24 => true
  | .entropyFail => true
  | .wrEnt _ _ => true
  | .wrCmd _ => true
  | .rdStatus => true
  | .rdIdxLo i => decide (i.val < 16)
  | .rdIdxHi i => decide (16 ≤ i.val)
  | .rdWordLo i _ => decide (i.val < 16)
  | .rdWordHi i _ => decide (16 ≤ i.val)

end Sys2Proof
end

