-- ==== Sys2Proof/Decode.lean ====
section
/-! DEFINITION. Decoding and encoding (30_encoding.md). A raw transaction is a BUS code with its data word, or a CMD-format
word (which is the data word of a host write to CMD). Decoding is total and rejects by name. -/

namespace Sys2Proof

/-- A host transaction as it reaches the block, in one of the two formats of R80. -/
inductive Raw
  /-- CMD format: `w` is written to CMD. -/
  | cmd (w : Word)
  /-- BUS format: the code `T = dir || addr`, and the write data (which a read does not use). -/
  | bus (t : BusCode) (wdata : Word)
deriving DecidableEq, Repr

/-- The five outcomes of decoding a CMD word (R84). -/
inductive Command
  | nop
  | clear
  | encode (n : BitVec 8)
  | entropyFail
  | badCommand
deriving DecidableEq, Repr

/-- Why the register map does not admit a transaction (R208). The cause is only a name: every one gets BUSERR. -/
inductive BusCause
  /-- `addr[1:0] != 00` (R52). -/
  | misaligned
  /-- No register at the address (R54). -/
  | reserved
  /-- A read of a write-only register or a write to a read-only one (R56). -/
  | direction
deriving DecidableEq, Repr

/-- What a raw transaction decodes to: an instruction, an illegal CMD word (R85) or a code with no row
(R90), a write or a read. -/
inductive Decoded
  | instr (i : Instr)
  | badCommand
  | busErr (cause : BusCause) (write : Bool)
deriving DecidableEq, Repr

/-- The registers of the map of R53. -/
inductive Reg
  | ent (j : Nat)
  | cmd
  | status
  | idx (i : Nat)
  | word (i q : Nat)
deriving DecidableEq, Repr

/-- The register map by address (R53): `none` at a misaligned or reserved address. -/
def regAt (addr : Addr) : Option Reg :=
  let a := addr.toNat
  if a % 4 ≠ 0 then none
  else if a < 0x020 then some (.ent (a / 4))
  else if a = 0x020 then some .cmd
  else if a = 0x024 then some .status
  else if a < 0x040 then none
  else if a < 0x0A0 then some (.idx ((a - 0x040) / 4))
  else if a < 0x100 then none
  else if a < 0x280 then some (.word ((a - 0x100) / 16) ((a - 0x100) % 16 / 4))
  else none

/-- The direction bit `dir` of a BUS code: 1 for a write (R80). -/
def busIsWrite (t : BusCode) : Bool := t.getLsbD 12

/-- The address of a BUS code (R80). -/
def busAddr (t : BusCode) : Addr := t.extractLsb' 0 12

/-- The name of the check a code with no row fails, in the order alignment, reserved address, direction. -/
def busCause (t : BusCode) : BusCause :=
  if (busAddr t).extractLsb' 0 2 ≠ 0 then .misaligned
  else if regAt (busAddr t) = none then .reserved
  else .direction

/-- The two-bit field of a BUS code at bit `lo`. -/
def busField2 (t : BusCode) (lo : Nat) : Fin 4 := (t.extractLsb' lo 2).toFin

/-- The three-bit field of a BUS code at bit `lo`. -/
def busField3 (t : BusCode) (lo : Nat) : Fin 8 := (t.extractLsb' lo 3).toFin

/-- The four-bit field of a BUS code at bit `lo`. -/
def busField4 (t : BusCode) (lo : Nat) : Fin 16 := (t.extractLsb' lo 4).toFin

/-- The output position a LO row's field names (R90). -/
def posLo (f : Fin 16) : Fin 24 := Fin.castLE (by decide) f

/-- The output position a HI row's field names, `16 + f` (R90). -/
def posHi (f : Fin 8) : Fin 24 := Fin.natAdd 16 f

/-- Does the code match the row (R90)? -/
def busRow (t : BusCode) (value mask : BusCode) : Bool := t &&& mask == value

/-- The BUS rows of R90; a code that matches none is rejected. -/
def decodeBus (t : BusCode) (wdata : Word) : Decoded :=
  if busRow t 0x1000 0x1FE3 then .instr (.wrEnt (busField3 t 2) wdata)
  else if busRow t 0x1020 0x1FFF then .instr (.wrCmd wdata)
  else if busRow t 0x0024 0x1FFF then .instr .rdStatus
  else if busRow t 0x0040 0x1FC3 then .instr (.rdIdxLo (posLo (busField4 t 2)))
  else if busRow t 0x0080 0x1FE3 then .instr (.rdIdxHi (posHi (busField3 t 2)))
  else if busRow t 0x0100 0x1F03 then .instr (.rdWordLo (posLo (busField4 t 4)) (busField2 t 2))
  else if busRow t 0x0200 0x1F83 then .instr (.rdWordHi (posHi (busField3 t 4)) (busField2 t 2))
  else .busErr (busCause t) (busIsWrite t)

/-- `OP = w[3:0]` (R80). -/
def cmdOp (w : Word) : BitVec 4 := w.extractLsb' 0 4

/-- `RSV0 = w[7:4]` (R80). -/
def cmdRsv0 (w : Word) : BitVec 4 := w.extractLsb' 4 4

/-- `ARG = w[15:8]` (R80, R82). -/
def cmdArg (w : Word) : BitVec 8 := w.extractLsb' 8 8

/-- `RSV1 = w[31:16]` (R80). -/
def cmdRsv1 (w : Word) : BitVec 16 := w.extractLsb' 16 16

/-- `Decode(w)`: the first match decides (R84). -/
def decodeCmd (w : Word) : Command :=
  if cmdRsv1 w ≠ 0 ∨ cmdRsv0 w ≠ 0 then .badCommand
  else if 4 ≤ (cmdOp w).toNat then .badCommand
  else if cmdOp w ≠ 2 ∧ cmdArg w ≠ 0 then .badCommand
  else if cmdOp w = 0 then .nop
  else if cmdOp w = 1 then .clear
  else if cmdOp w = 2 then .encode (cmdArg w)
  else .entropyFail

/-- The row of a command: an accepted word count has its exact row (R81), BAD_COMMAND has none. -/
def rowOfCommand : Command → Decoded
  | .nop => .instr .nop
  | .clear => .instr .clear
  | .encode n =>
    if n = 12 then .instr .encode12 else if n = 24 then .instr .encode24 else .instr (.encode n)
  | .entropyFail => .instr .entropyFail
  | .badCommand => .badCommand

/-- The decoder, total on every raw transaction (R84, R90). -/
def decode : Raw → Decoded
  | .cmd w => rowOfCommand (decodeCmd w)
  | .bus t wdata => decodeBus t wdata

/-- A CMD word from its fields (R80). -/
def cmdWord (op : BitVec 4) (arg : BitVec 8) : Word := 0#16 ++ arg ++ 0#4 ++ op

/-- The raw transaction of an instruction, from the tables of R81 and R90; a read carries a data word of 0. -/
def encode : Instr → Raw
  | .nop => .cmd (cmdWord 0 0)
  | .clear => .cmd (cmdWord 1 0)
  | .encode n => .cmd (cmdWord 2 n)
  | .encode12 => .cmd (cmdWord 2 12)
  | .encode24 => .cmd (cmdWord 2 24)
  | .entropyFail => .cmd (cmdWord 3 0)
  | .wrEnt j w => .bus (0x1000#13 ||| BitVec.ofNat 13 (4 * j.val)) w
  | .wrCmd w => .bus 0x1020#13 w
  | .rdStatus => .bus 0x0024#13 0
  | .rdIdxLo i => .bus (0x0040#13 ||| BitVec.ofNat 13 (4 * i.val)) 0
  | .rdIdxHi i => .bus (0x0080#13 ||| BitVec.ofNat 13 (4 * (i.val - 16))) 0
  | .rdWordLo i q => .bus (0x0100#13 ||| BitVec.ofNat 13 (16 * i.val + 4 * q.val)) 0
  | .rdWordHi i q => .bus (0x0200#13 ||| BitVec.ofNat 13 (16 * (i.val - 16) + 4 * q.val)) 0

/-- The instruction of a decoding, if it is one. -/
def Decoded.instr? : Decoded → Option Instr
  | .instr i => some i
  | .badCommand => none
  | .busErr _ _ => none

/-- The raw transaction that a word numbered as spec/opcode_table.json numbers it stands for. A CMD row has 32 bits. A BUS
row's code is the 16 low bits (13 of them used) and its data word follows in bits 47..16. No word is a row of both formats
(`cmd_and_bus_rows_disjoint`), so the reading of a row's word needs no format tag; a word of no row is read by its length. -/
def tableRaw (nbits w : Nat) : Raw :=
  let v := w % 2 ^ nbits
  let c := Raw.cmd (BitVec.ofNat 32 v)
  let b := Raw.bus (BitVec.ofNat 13 (v % 2 ^ 16)) (BitVec.ofNat 32 (v / 2 ^ 16))
  if v < 2 ^ 32 ∧ (decode c).instr?.isSome then c
  else if v % 2 ^ 16 < 2 ^ 13 ∧ v < 2 ^ 48 ∧ (nbits ≤ 16 ∨ 32 < nbits ∨ (decode b).instr?.isSome) then b
  else c

/-- The instruction the decoder reads from a word of the opcode table. -/
def decodeTableWord (nbits w : Nat) : Option Instr := (decode (tableRaw nbits w)).instr?

end Sys2Proof
end

