-- ==== Sys2Proof/Machine/State.lean ====
section
/-! DEFINITION. The state: the block's own (10_state.md R20), and beside it the pending events and the given responses,
which are the model's account of the world outside the block. -/

namespace Sys2Proof.Machine

/-- The sequencer phase (R26). Its binary encoding is not observable and not specified. -/
inductive Phase
  | idle
  | load
  | checksum
  | last
  | slice
  | complete
deriving DecidableEq, Repr

/-- The error codes (60_exceptions.md R201); the reserved codes 7 to 15 are never produced. -/
inductive ErrCode
  /-- 0 -/
  | none
  /-- 1 -/
  | invalidConfig
  /-- 2 -/
  | entropyLength
  /-- 3 -/
  | entropyUnavailable
  /-- 4 -/
  | fatalLocked
  /-- 5 -/
  | badCommand
  /-- 6 -/
  | busy
deriving DecidableEq, Repr

/-- The complete state of one block instance (R20). -/
structure Block where
  /-- ENT0..ENT7, the entropy registers (R23). -/
  ent : Vector Word 8
  /-- ENTV, the entropy-valid mask (R24). -/
  entv : BitVec 8
  /-- NWORDS: 0, 12 or 24 (R25). -/
  nwords : BitVec 8
  /-- PHASE (R26). -/
  phase : Phase
  /-- J, the position the next SLICE writes: 0..22 (R27). -/
  j : Fin 23
  /-- L[0..3], the limb register file, `L[0]` most significant (R29). -/
  l : Vector Limb 4
  /-- C, the checksum latch (R30). -/
  c : BitVec 8
  /-- IDX[0..23], the word indices (R28). -/
  idx : Vector Index 24
  /-- DONE (R31). -/
  done : Bool
  /-- FATAL, sticky until reset (R31). -/
  fatal : Bool
  /-- ERR, the code of the latest rejection (R31, R201). -/
  err : ErrCode
deriving DecidableEq, Repr

/-- The response code of a transaction (20_memory.md R51, R55). -/
inductive Resp
  | okay
  | busErr
deriving DecidableEq, Repr

/-- The response to one host transaction: a read returns data, a write returns none (R51). -/
structure Response where
  resp : Resp
  rdata : Option Word
deriving DecidableEq, Repr

/-- One entry of the total order of steps (R12, R61). -/
inductive Event
  /-- A host transaction. -/
  | host (r : Raw)
  /-- A turn of the sequencer. -/
  | seq
  /-- A reset. -/
  | rst
deriving DecidableEq, Repr

structure State where
  /-- The block. -/
  block : Block
  /-- The events still to come, first one first. When none is left the sequencer moves while it has a step. -/
  events : List Event
  /-- The responses the host has been given, newest first. -/
  responses : List Response
deriving DecidableEq, Repr

/-- Why the machine stops with a fault: never. The block has no trap mechanism and an error never changes the flow of any
agent (R200, R211), so this type has no constructor. -/
inductive Fault
deriving DecidableEq, Repr

/-- Why a step is refused. -/
inductive Refusal
  /-- An instruction without a meaning yet. Raised by exec's refused arms only (there are none). Safe. -/
  | notModelled (mnemonic : String)
  /-- A micro-step that reads NWORDS while NWORDS is neither 12 nor 24 (R147, 93_implementation_defined.md I21). Raised by
  the sequencer's turn only, in states no run reaches (R38 item 2). Safe: nothing is claimed of the datapath there. -/
  | datapathMode
deriving DecidableEq, Repr

/-- The block right after reset (R37): every element zero, PHASE IDLE. -/
def Block.reset : Block where
  ent := Vector.replicate 8 0
  entv := 0
  nwords := 0
  phase := .idle
  j := 0
  l := Vector.replicate 4 0
  c := 0
  idx := Vector.replicate 24 0
  done := false
  fatal := false
  err := .none

/-- The machine right after reset: the block as R37 says, no event pending, no response given. -/
def State.reset : State where
  block := Block.reset
  events := []
  responses := []

/-- The block replaced. -/
def State.setBlock (s : State) (b : Block) : State := { s with block := b }

/-- The pending events replaced. -/
def State.setEvents (s : State) (es : List Event) : State := { s with events := es }

/-- A response given to the host. -/
def State.respond (s : State) (r : Response) : State := { s with responses := r :: s.responses }

end Sys2Proof.Machine
end

