-- ==== Sys2Proof/Machine/Ops.lean ====
section
/-! DEFINITION. The named operations on the block's registers, and the two shared forms an error takes: `reject` and the
BUSERR response (60_exceptions.md R200). The block has no trap entry and no return (R211, R212): these stand in their place. -/

namespace Sys2Proof.Machine

/-- IDX[0..23] all zero. -/
def zeroIdx : Vector Index 24 := Vector.replicate 24 0

/-- ENT[0..7] all zero. -/
def zeroEnt : Vector Word 8 := Vector.replicate 8 0

/-- L[0..3] all zero. -/
def zeroLimbs : Vector Limb 4 := Vector.replicate 4 0

/-- `reject(code)`: ERR takes the code; nothing else changes (R15, R200). -/
def reject (e : ErrCode) (b : Block) : Block := { b with err := e }

/-- ClearOutput (R113). -/
def clearOutput (b : Block) : Block := { b with idx := zeroIdx, done := false, nwords := 0 }

/-- What CLEAR and ENTROPY_FAIL share: the sequencer stopped, the datapath, the entropy and the output zeroed (R103, R107). -/
def scrub (b : Block) : Block :=
  { b with phase := .idle, j := 0, l := zeroLimbs, c := 0, ent := zeroEnt, entv := 0
           idx := zeroIdx, done := false, nwords := 0 }

/-- An ENCODE accepted in mode `m` (R104, last branch). -/
def accept (m : Mode) (b : Block) : Block :=
  { b with nwords := m.words, idx := zeroIdx, done := false, err := .none, phase := .load }

/-- ENT[j] takes the word and ENTV[j] is set (R100, last branch). -/
def setEntropy (j : Fin 8) (w : Word) (b : Block) : Block :=
  { b with ent := b.ent.set j.val w, entv := b.entv ||| (1#8 <<< j.val) }

/-- The reset event: every element takes its value of R37, from any state (R230). -/
def resetBlock (_ : Block) : Block := Block.reset

/-- `respond OKAY` to a write. -/
def writeOkay : Response := { resp := .okay, rdata := none }

/-- `respond OKAY(rdata)` to a read. -/
def readOkay (d : Word) : Response := { resp := .okay, rdata := some d }

/-- `respond BUSERR` to a write. -/
def writeBusErr : Response := { resp := .busErr, rdata := none }

/-- `respond BUSERR` to a read: the read data is 0 (R52, R54, R56, R208). -/
def readBusErr : Response := { resp := .busErr, rdata := some 0 }

/-- The BUSERR response to a write or a read (R51, R55). -/
def busErrFor (write : Bool) : Response := if write then writeBusErr else readBusErr

/-- A host write the map admits: the block as the write leaves it, and the response OKAY (R55). -/
def finishWrite (b : Block) (s : State) : Host.Outcome State Fault Refusal :=
  .next ((s.setBlock b).respond writeOkay)

/-- A host read: the response, and no other effect (R62). -/
def finishRead (r : Response) (s : State) : Host.Outcome State Fault Refusal :=
  .next (s.respond r)

/-- A transaction the register map does not admit: BUSERR, and no state of the block changes, not even ERR (R55). -/
def finishBusErr (write : Bool) (s : State) : Host.Outcome State Fault Refusal :=
  .next (s.respond (busErrFor write))

end Sys2Proof.Machine
end

