-- ==== Sys2Proof/Machine/Flags.lean ====
section
/-! DEFINITION. The status flags and the STATUS view (10_state.md R31, R32; 60_exceptions.md R201). -/

namespace Sys2Proof.Machine

/-- BUSY is derived: `PHASE != IDLE` (R31). -/
def busy (b : Block) : Bool := b.phase != .idle

/-- The numeric code of an error (R201). -/
def errBits : ErrCode → BitVec 4
  | .none => 0
  | .invalidConfig => 1
  | .entropyLength => 2
  | .entropyUnavailable => 3
  | .fatalLocked => 4
  | .badCommand => 5
  | .busy => 6

/-- STATUS, most significant field first: [31:24] 0, ENTV, NWORDS, ERR, [3] 0, FATAL, DONE, BUSY (R32, R109). -/
def statusWord (b : Block) : Word :=
  0#8 ++ b.entv ++ b.nwords ++ errBits b.err ++ 0#1 ++ BitVec.ofBool b.fatal ++ BitVec.ofBool b.done
    ++ BitVec.ofBool (busy b)

/-- `.BUSY` of a STATUS value read (R32, R91). -/
def fieldBusy (w : Word) : Bool := w.getLsbD 0

/-- `.DONE` of a STATUS value read. -/
def fieldDone (w : Word) : Bool := w.getLsbD 1

/-- `.FATAL` of a STATUS value read. -/
def fieldFatal (w : Word) : Bool := w.getLsbD 2

/-- `.ERR` of a STATUS value read. -/
def fieldErr (w : Word) : BitVec 4 := w.extractLsb' 4 4

/-- `.NWORDS` of a STATUS value read. -/
def fieldNwords (w : Word) : BitVec 8 := w.extractLsb' 8 8

/-- `.ENTV` of a STATUS value read. -/
def fieldEntv (w : Word) : BitVec 8 := w.extractLsb' 16 8

/-- Output position `i` can be read: `DONE = 1` and `i < NWORDS` (R110, R111). -/
def readable (b : Block) (i : Fin 24) : Bool := b.done && decide (i.val < b.nwords.toNat)

end Sys2Proof.Machine
end

