-- ==== Sys2Proof/Machine/Operands.lean ====
section
/-! DEFINITION. How values are put together from bytes, registers and limbs: entropy byte order (20_memory.md R57), the
multi-limb shift (41_encoder_datapath.md R131), the checksum function (R135) and the word window (42_word_rom.md R174). -/

namespace Sys2Proof.Machine

/-- Four bytes, the first in bits [31:24] (R57, R59). -/
def packWord (a b c d : Byte) : Word := a ++ b ++ c ++ d

/-- Byte `m` of a register, byte 0 in bits [31:24] (R57). -/
def wordByte (w : Word) (m : Nat) : Byte := w.extractLsb' (24 - 8 * m) 8

/-- The four bytes of a register in entropy order (R57). -/
def wordBytes (w : Word) : List Byte := [wordByte w 0, wordByte w 1, wordByte w 2, wordByte w 3]

/-- `EntBytes(B)`: entropy bytes 0 to `B - 1` of the mode (R57). -/
def entBytes (m : Mode) (ent : Vector Word 8) : List Byte :=
  (ent.toList.take (m.bytes / 4)).flatMap wordBytes

/-- `ENT[2i] || ENT[2i+1]`, the limb `E[i]` (R57). -/
def entLimb (ent : Vector Word 8) (i : Fin 4) : Limb :=
  ent[2 * i.val]'(by omega) ++ ent[2 * i.val + 1]'(by omega)

/-- The limbs LOAD leaves: `E[0..k-1]`, the unused ones zero (R133). -/
def loadLimbs (m : Mode) (ent : Vector Word 8) : Vector Limb 4 :=
  match m with
  | .w12 => #v[entLimb ent 0, entLimb ent 1, 0, 0]
  | .w24 => #v[entLimb ent 0, entLimb ent 1, entLimb ent 2, entLimb ent 3]

/-- One limb of the shifted integer: `(L[i] >> s) | ((L[i-1] << (64 - s)) mod 2^64)` (R131). -/
def shiftLimb (s : Nat) (above limb : Limb) : Limb := (limb >>> s) ||| (above <<< (64 - s))

/-- `SHR_k(L, s)`: every `L[i-1]` read is the value before this shift, and the unused limbs stay (R131). -/
def shr (m : Mode) (s : Nat) (l : Vector Limb 4) : Vector Limb 4 :=
  match m with
  | .w12 => #v[l[0] >>> s, shiftLimb s l[0] l[1], l[2], l[3]]
  | .w24 => #v[l[0] >>> s, shiftLimb s l[0] l[1], shiftLimb s l[1] l[2], shiftLimb s l[2] l[3]]

/-- The least significant limb in use, `L[k-1]`. -/
def lowLimb (m : Mode) (l : Vector Limb 4) : Limb :=
  match m with
  | .w12 => l[1]
  | .w24 => l[3]

/-- `CHK(H0, n)`: the high nibble, or the whole byte (R135). -/
def chk (m : Mode) (h0 : Byte) : BitVec 8 :=
  match m with
  | .w12 => (h0.extractLsb' 4 4).setWidth 8
  | .w24 => h0

/-- `H0`, byte 0 of the hash of the mode's entropy bytes (R8, R134). -/
def hashByte (m : Mode) (ent : Vector Word 8) : Byte := (Config.hash256 (entBytes m ent))[0]

/-- The last index in 12-word mode: `((L[1] & 0x7F) << 4)[10:0] | C[3:0]` (R136). -/
def lastIndex12 (l1 : Limb) (c : BitVec 8) : Index :=
  ((l1 &&& 0x7F) <<< 4).setWidth 11 ||| (c.setWidth 4).setWidth 11

/-- The last index in 24-word mode: `((L[3] & 0x07) << 8)[10:0] | C[7:0]` (R137). -/
def lastIndex24 (l3 : Limb) (c : BitVec 8) : Index :=
  ((l3 &&& 0x07) <<< 8).setWidth 11 ||| c.setWidth 11

/-- `ROMRead(idx)` (R173): the slot of the constant word list. Every 11-bit index is a slot's address (R170). -/
def romRead (idx : Index) : Slot := Config.wordlist idx.toFin

/-- `Window(s, q)`: slot bytes `4q` to `4q + 3`, byte `4q` in bits [31:24] (R174). -/
def window (s : Slot) (q : Fin 4) : Word :=
  packWord (s[4 * q.val]'(by omega)) (s[4 * q.val + 1]'(by omega)) (s[4 * q.val + 2]'(by omega))
    (s[4 * q.val + 3]'(by omega))

end Sys2Proof.Machine
end

