-- ==== Sys2Proof/Machine/Commands.lean ====
section
/-! DEFINITION. The command family: what a word written to CMD does (40_commands.md R101 to R108). -/

namespace Sys2Proof.Machine

/-- CLEAR: everything but FATAL is zeroed (R103). -/
def clearBlock (b : Block) : Block := { scrub b with err := .none }

/-- ENTROPY_FAIL: scrubbed and locked (R107). -/
def failBlock (b : Block) : Block := { scrub b with fatal := true, err := .entropyUnavailable }

/-- ENCODE n: the checks in their order, then acceptance (R104, R209). -/
def encodeBlock (n : BitVec 8) (b : Block) : Block :=
  if b.fatal then reject .fatalLocked b
  else if busy b then reject .busy b
  else
    match Mode.ofWords n with
    | none => clearOutput (reject .invalidConfig b)
    | some m => if b.entv ≠ m.mask then clearOutput (reject .entropyLength b) else accept m b

/-- One of the five commands of R84 run on the block. -/
def runCommand (c : Command) (b : Block) : Block :=
  match c with
  | .nop => b
  | .clear => clearBlock b
  | .encode n => encodeBlock n b
  | .entropyFail => failBlock b
  | .badCommand => reject .badCommand b

/-- NOP (R102). -/
def execNop (s : State) : Host.Outcome State Fault Refusal := finishWrite s.block s

/-- CLEAR (R103). -/
def execClear (s : State) : Host.Outcome State Fault Refusal := finishWrite (clearBlock s.block) s

/-- ENCODE n (R104). -/
def execEncode (n : BitVec 8) (s : State) : Host.Outcome State Fault Refusal :=
  finishWrite (encodeBlock n s.block) s

/-- ENCODE.12: R104 with `n = 12` (R105). -/
def execEncode12 (s : State) : Host.Outcome State Fault Refusal := finishWrite (encodeBlock 12 s.block) s

/-- ENCODE.24: R104 with `n = 24` (R106). -/
def execEncode24 (s : State) : Host.Outcome State Fault Refusal := finishWrite (encodeBlock 24 s.block) s

/-- ENTROPY_FAIL (R107). -/
def execEntropyFail (s : State) : Host.Outcome State Fault Refusal := finishWrite (failBlock s.block) s

/-- WR_CMD: the word is decoded and its command run; the response is OKAY whatever it does (R101). -/
def execWrCmd (w : Word) (s : State) : Host.Outcome State Fault Refusal :=
  finishWrite (runCommand (decodeCmd w) s.block) s

/-- BAD_COMMAND: what a CMD-format word of no row does (R108). -/
def runBadCommand (s : State) : Host.Outcome State Fault Refusal :=
  finishWrite (reject .badCommand s.block) s

end Sys2Proof.Machine
end

