-- ==== Sys2Proof/Machine/Registers.lean ====
section
/-! DEFINITION. The register-access family: entropy writes and the three reads (40_commands.md R100, R109 to R111). -/

namespace Sys2Proof.Machine

/-- What an entropy write does to the block: the checks in their order, then the store (R100, R209). -/
def entropyBlock (j : Fin 8) (w : Word) (b : Block) : Block :=
  if b.fatal then reject .fatalLocked b
  else if busy b then reject .busy b
  else setEntropy j w b

/-- The response to a read of output position `i`: the data if the position is readable, else BUSERR (R110, R111). -/
def readOutput (b : Block) (i : Fin 24) (d : Word) : Response :=
  if readable b i then readOkay d else readBusErr

/-- IDXi as a 32-bit register: bits [31:11] read 0 (R28, R110). -/
def idxWord (b : Block) (i : Fin 24) : Word := b.idx[i].setWidth 32

/-- WORDi_q: quarter `q` of the slot that IDX[i] selects (R111, R174). -/
def wordWord (b : Block) (i : Fin 24) (q : Fin 4) : Word := window (romRead b.idx[i]) q

/-- WR_ENT j (R100). -/
def execWrEnt (j : Fin 8) (w : Word) (s : State) : Host.Outcome State Fault Refusal :=
  finishWrite (entropyBlock j w s.block) s

/-- RD_STATUS (R109). -/
def execRdStatus (s : State) : Host.Outcome State Fault Refusal :=
  finishRead (readOkay (statusWord s.block)) s

/-- RD_IDX, positions 0 to 15 (R110). -/
def execRdIdxLo (i : Fin 24) (s : State) : Host.Outcome State Fault Refusal :=
  finishRead (readOutput s.block i (idxWord s.block i)) s

/-- RD_IDX, positions 16 to 23 (R110). -/
def execRdIdxHi (i : Fin 24) (s : State) : Host.Outcome State Fault Refusal :=
  finishRead (readOutput s.block i (idxWord s.block i)) s

/-- RD_WORD, positions 0 to 15 (R111). -/
def execRdWordLo (i : Fin 24) (q : Fin 4) (s : State) : Host.Outcome State Fault Refusal :=
  finishRead (readOutput s.block i (wordWord s.block i q)) s

/-- RD_WORD, positions 16 to 23 (R111). -/
def execRdWordHi (i : Fin 24) (q : Fin 4) (s : State) : Host.Outcome State Fault Refusal :=
  finishRead (readOutput s.block i (wordWord s.block i q)) s

end Sys2Proof.Machine
end

