-- ==== Sys2Proof/Machine/Dispatch.lean ====
section
/-! DEFINITION. One arm per instruction. -/

namespace Sys2Proof.Machine

def exec (i : Instr) (s : State) : Host.Outcome State Fault Refusal :=
  match i with
  | .nop => Sys2Proof.Machine.execNop s
  | .clear => Sys2Proof.Machine.execClear s
  | .encode n => Sys2Proof.Machine.execEncode n s
  | .encode12 => Sys2Proof.Machine.execEncode12 s
  | .encode24 => Sys2Proof.Machine.execEncode24 s
  | .entropyFail => Sys2Proof.Machine.execEntropyFail s
  | .wrEnt j w => Sys2Proof.Machine.execWrEnt j w s
  | .wrCmd w => Sys2Proof.Machine.execWrCmd w s
  | .rdStatus => Sys2Proof.Machine.execRdStatus s
  | .rdIdxLo p => Sys2Proof.Machine.execRdIdxLo p s
  | .rdIdxHi p => Sys2Proof.Machine.execRdIdxHi p s
  | .rdWordLo p q => Sys2Proof.Machine.execRdWordLo p q s
  | .rdWordHi p q => Sys2Proof.Machine.execRdWordHi p q s

end Sys2Proof.Machine
end

