-- ==== Sys2Proof/Machine/Sequencer.lean ====
section
/-! DEFINITION. The sequencer and its micro-steps (41_encoder_datapath.md R130 to R139). -/

namespace Sys2Proof.Machine

/-- LOAD (R133). -/
def loadStep (m : Mode) (b : Block) : Block := { b with l := loadLimbs m b.ent, phase := .checksum }

/-- CHECKSUM (R134). -/
def checksumStep (m : Mode) (b : Block) : Block := { b with c := chk m (hashByte m b.ent), phase := .last }

/-- LAST, 12-word mode (R136). -/
def last12Step (b : Block) : Block :=
  { b with idx := b.idx.set 11 (lastIndex12 b.l[1] b.c), l := shr .w12 7 b.l, j := 10, phase := .slice }

/-- LAST, 24-word mode (R137). -/
def last24Step (b : Block) : Block :=
  { b with idx := b.idx.set 23 (lastIndex24 b.l[3] b.c), l := shr .w24 3 b.l, j := 22, phase := .slice }

/-- LAST, by mode. -/
def lastStep (m : Mode) (b : Block) : Block :=
  match m with
  | .w12 => last12Step b
  | .w24 => last24Step b

/-- `J - 1`, used where `J` is not 0. -/
def predJ (j : Fin 23) : Fin 23 := ⟨j.val - 1, by omega⟩

/-- SLICE: extract, shift, count down (R138). -/
def sliceStep (m : Mode) (b : Block) : Block :=
  let b' := { b with idx := b.idx.set b.j.val ((lowLimb m b.l).setWidth 11), l := shr m 11 b.l }
  if b.j = 0 then { b' with phase := .complete } else { b' with j := predJ b.j }

/-- COMPLETE: output valid, entropy consumed, datapath scrubbed (R139). -/
def completeStep (b : Block) : Block :=
  { b with done := true, ent := zeroEnt, entv := 0, l := zeroLimbs, c := 0, j := 0, phase := .idle }

/-- The micro-step PHASE names, in the mode that NWORDS names (R130); COMPLETE does not read NWORDS (R139). There is none
where NWORDS, read, is neither 12 nor 24 (R147). In IDLE the sequencer has no step and nothing changes. -/
def microStep (b : Block) : Option Block :=
  match b.phase with
  | .idle => some b
  | .load => (Mode.ofWords b.nwords).map (fun m => loadStep m b)
  | .checksum => (Mode.ofWords b.nwords).map (fun m => checksumStep m b)
  | .last => (Mode.ofWords b.nwords).map (fun m => lastStep m b)
  | .slice => (Mode.ofWords b.nwords).map (fun m => sliceStep m b)
  | .complete => some (completeStep b)

/-- A turn of the sequencer: its micro-step if it has one. -/
def runSeq (s : State) : Host.Outcome State Fault Refusal :=
  match microStep s.block with
  | some b => .next (s.setBlock b)
  | none => .refused .datapathMode

end Sys2Proof.Machine
end

