-- ==== Sys2Proof/Machine/Schedule.lean ====
section
/-! DEFINITION. What one event of the total order does (20_memory.md R61), and what the machine does when no event is
pending. -/

namespace Sys2Proof.Machine

/-- A host transaction: decoded, then its instruction's meaning, BAD_COMMAND (R108) or BUSERR (R55). -/
def runHost (r : Raw) (s : State) : Host.Outcome State Fault Refusal :=
  match decode r with
  | .instr i => exec i s
  | .badCommand => runBadCommand s
  | .busErr _ write => finishBusErr write s

/-- One event. -/
def runEvent (e : Event) (s : State) : Host.Outcome State Fault Refusal :=
  match e with
  | .host r => runHost r s
  | .seq => runSeq s
  | .rst => .next (s.setBlock (resetBlock s.block))

/-- The machine's next step: the first pending event, or, with none pending, a turn of the sequencer (R130, R239), which
leaves an idle block as it is (R220). -/
def runNext (s : State) : Host.Outcome State Fault Refusal :=
  match s.events with
  | [] => runSeq s
  | e :: rest => runEvent e (s.setEvents rest)

end Sys2Proof.Machine
end

