-- ==== Sys2Proof/Machine/Step.lean ====
section
/-! DEFINITION. The step, and how the host places an instruction as the next one. -/

namespace Sys2Proof.Machine

/-- One step of the machine: a host transaction, a sequencer micro-step or a reset, whichever is next (00_scope.md R12). -/
def step (s : State) : Host.Outcome State Fault Refusal := runNext s

/-- The state in which the transaction that a word of the opcode table stands for is the next event. -/
def State.withFetchWord (s : State) (nbits w : Nat) : State :=
  s.setEvents (.host (tableRaw nbits w) :: s.events)

end Sys2Proof.Machine
end

