-- ==== Sys2Proof/Machine/Script.lean ====
section
/-! DEFINITION. Host-script lines and pseudo-commands as the events they send to the block (30_encoding.md R91, R92). Labels,
`BR` and the loop of POLL are the host's own control flow and send nothing of their own. -/

namespace Sys2Proof.Machine

/-- `WR <address>, <value>`. -/
def hostWrite (a : Addr) (w : Word) : Event := .host (.bus (1#1 ++ a) w)

/-- `RD <address>`. -/
def hostRead (a : Addr) : Event := .host (.bus (0#1 ++ a) 0)

/-- `CMD <command>`: short for `WR CMD, <word>`. -/
def hostCmd (w : Word) : Event := hostWrite 0x020 w

/-- `LOADENT` from register `j` on: four bytes a register, in increasing `j`. -/
def loadEntFrom (j : Nat) : List Byte → List Event
  | a :: b :: c :: d :: rest => hostWrite (BitVec.ofNat 12 (4 * j)) (packWord a b c d) :: loadEntFrom (j + 1) rest
  | _ => []

/-- `LOADENT b0 b1 ... b(B-1)`. -/
def loadEnt (bytes : List Byte) : List Event := loadEntFrom 0 bytes

/-- `ENCODE12`. -/
def sendEncode12 : Event := hostCmd 0x00000C02

/-- `ENCODE24`. -/
def sendEncode24 : Event := hostCmd 0x00001802

/-- The STATUS read of one turn of `POLL`. -/
def pollRead : Event := hostRead 0x024

/-- `READIDX n`. -/
def readIdx (n : Nat) : List Event := (List.range n).map (fun i => hostRead (BitVec.ofNat 12 (0x040 + 4 * i)))

/-- `READWORD i`. -/
def readWord (i : Nat) : List Event :=
  (List.range 4).map (fun q => hostRead (BitVec.ofNat 12 (0x100 + 16 * i + 4 * q)))

end Sys2Proof.Machine
end

