-- ==== Sys2Proof/Machine/Observe.lean ====
section
/-! DEFINITION. Observation functions, not hardware: what the spec's laws say of the block's values. The integers that limbs
and entropy denote (00_scope.md R15), the combined stream and its 11-bit groups (20_memory.md R58, 41_encoder_datapath.md
R141), the way back from indices (R145), words and TEXT (42_word_rom.md R175 to R177), and the duration of an ENCODE
(70_reset_and_hazards.md R242). -/

namespace Sys2Proof.Machine

/-- The integer a byte string denotes, byte 0 most significant. -/
def bytesVal (bs : List Byte) : Nat := bs.foldl (fun acc b => acc * 256 + b.toNat) 0

/-- `VAL(e[0..B-1])`, the entropy as an integer (R141). -/
def entropyVal (m : Mode) (ent : Vector Word 8) : Nat := bytesVal (entBytes m ent)

/-- `VAL_k(L)`: limb 0 most significant (R15). -/
def limbVal (m : Mode) (l : Vector Limb 4) : Nat :=
  ((l.toList.take m.limbs).map BitVec.toNat).foldl (fun acc x => acc * 2 ^ 64 + x) 0

/-- The checksum of the mode's entropy bytes, `CHK(HASH256(e)[0], n)` (R135). -/
def checksumOf (m : Mode) (ent : Vector Word 8) : BitVec 8 := chk m (hashByte m ent)

/-- The combined stream `S = VAL(e) * 2^CS + C` (R58, R141). -/
def stream (m : Mode) (ent : Vector Word 8) : Nat := entropyVal m ent * 2 ^ m.cs + (checksumOf m ent).toNat

/-- The 11-bit group of position `j`: position 0 is the most significant (R16, R141). -/
def group (m : Mode) (stream : Nat) (j : Nat) : Nat := stream / 2 ^ (11 * (m.n - 1 - j)) % 2 ^ 11

/-- The integer that the first `n` indices spell, most significant first: the sum of `IDX[j] * 2^(11 (n-1-j))` (R145). -/
def recombine (m : Mode) (idx : Vector Index 24) : Nat :=
  ((idx.toList.take m.n).map BitVec.toNat).foldl (fun acc x => acc * 2 ^ 11 + x) 0

/-- `word(s)`: the bytes before the first `0x00`, or all 16 (R175). -/
def slotWord (s : Slot) : List Byte := s.toList.takeWhile (fun b => b != 0)

/-- The indices the host can read, in position order. -/
def outputs (b : Block) : List Index := b.idx.toList.take b.nwords.toNat

/-- The words that indices select from a word list (R177). -/
def wordsOf (wl : Fin 2048 → Slot) (is : List Index) : List (List Byte) := is.map (fun i => slotWord (wl i.toFin))

/-- The words joined by one `0x20` between each two: no leading or trailing space, no newline (R176). -/
def textOf (wl : Fin 2048 → Slot) (is : List Index) : List Byte := List.intercalate [0x20] (wordsOf wl is)

/-- The word sequence of the block's output, read at `DONE = 1` (R177). -/
def words (b : Block) : List (List Byte) := wordsOf Config.wordlist (outputs b)

/-- TEXT, read at `DONE = 1` (R176). -/
def text (b : Block) : List Byte := textOf Config.wordlist (outputs b)

/-- Micro-steps of an accepted ENCODE (R140). -/
def encodeSteps (m : Mode) : Nat := m.n + 3

/-- Cycles from acceptance to DONE when no host transaction stalls the sequencer (R242). -/
def encodeCycles (m : Mode) : Nat := encodeSteps m * Config.tStep

/-- The phase and position after `k` micro-steps of an accepted ENCODE (R140): LOAD, CHECKSUM, LAST, then SLICE with J from
`n - 2` down to 0, COMPLETE, IDLE. -/
def scheduleAt (m : Mode) (k : Nat) : Phase × Nat :=
  match k with
  | 0 => (.load, 0)
  | 1 => (.checksum, 0)
  | 2 => (.last, 0)
  | k + 3 => if k < m.n - 1 then (.slice, m.n - 2 - k) else if k = m.n - 1 then (.complete, 0) else (.idle, 0)

end Sys2Proof.Machine
end

