-- ==== Sys2Proof/Safety.lean ====
section
/-! DEFINITION. The terms claims are stated in: the invariants of the block (10_state.md R38 and what supports it), the
datapath's progress (41_encoder_datapath.md R141, R142), the command a transaction carries, and what the host can see. -/

namespace Sys2Proof.Machine

/-- NWORDS names a mode. -/
def inMode (b : Block) (m : Mode) : Prop := Mode.ofWords b.nwords = some m

/-- The invariants of R38, item by item, and four facts that support them: J is 0 outside SLICE (R27) and within the
positions still to write in SLICE (R140), the entropy mask of a running encoding is the mode's (R104, R112), and the
checksum latch is empty before CHECKSUM (R30). -/
structure Block.Inv (b : Block) : Prop where
  /-- item 1 -/
  idleClean : b.phase = .idle → b.l = zeroLimbs ∧ b.c = 0 ∧ b.j = 0
  /-- item 2 -/
  busyMode : b.phase ≠ .idle → (b.nwords = 12 ∨ b.nwords = 24) ∧ b.done = false ∧ b.fatal = false
  /-- item 3 -/
  doneMode : b.done = true → b.phase = .idle ∧ (b.nwords = 12 ∨ b.nwords = 24)
  /-- item 4 -/
  fatalClean : b.fatal = true →
    b.done = false ∧ b.nwords = 0 ∧ b.entv = 0 ∧ b.ent = zeroEnt ∧ b.phase = .idle
  /-- item 5, first sentence -/
  idxBeyond : ∀ i : Fin 24, b.nwords.toNat ≤ i.val → b.idx[i] = 0
  /-- item 5, second sentence -/
  idleEmpty : b.done = false → b.phase = .idle → b.nwords = 0 ∧ b.idx = zeroIdx
  /-- item 6 -/
  entClear : ∀ j : Fin 8, b.entv.getLsbD j.val = false → b.ent[j] = 0
  /-- item 7 -/
  mode12 : b.nwords = 12 → b.l[2] = 0 ∧ b.l[3] = 0 ∧ b.c.extractLsb' 4 4 = 0
  /-- item 8 -/
  errCode : (errBits b.err).toNat ≤ 6
  /-- R27 -/
  jOutsideSlice : b.phase ≠ .slice → b.j = 0
  /-- R140 -/
  jInSlice : b.phase = .slice → b.j.val + 2 ≤ b.nwords.toNat
  /-- R104, R112 -/
  busyMask : b.phase ≠ .idle → ∀ m, inMode b m → b.entv = m.mask
  /-- R30 -/
  latchEmpty : b.phase = .load ∨ b.phase = .checksum → b.c = 0

/-- The bound in the remaining-bits law (R142): in SLICE the limbs hold no bit beyond the `J + 1` groups still to write, and
after the last SLICE they are 0. Which bits they hold is `Block.Tracks.sliced`. -/
def Block.Remaining (b : Block) : Prop :=
  ∀ m, inMode b m →
    (b.phase = .slice → limbVal m b.l < 2 ^ (11 * (b.j.val + 1))) ∧ (b.phase = .complete → b.l = zeroLimbs)

/-- The progress of a running encoding towards the bit-layout law (R141): after LOAD the limbs are the entropy, after
CHECKSUM the latch is its checksum, and in SLICE every position above J is written as the law says and the limbs are what
is left of the entropy. -/
structure Block.Tracks (b : Block) (m : Mode) : Prop where
  loaded : b.phase = .checksum ∨ b.phase = .last → limbVal m b.l = entropyVal m b.ent
  summed : b.phase = .last → b.c = checksumOf m b.ent
  sliced : b.phase = .slice →
    limbVal m b.l = entropyVal m b.ent / 2 ^ (m.r + 11 * (m.n - 2 - b.j.val)) ∧
    ∀ i : Fin 24, b.j.val < i.val → i.val < m.n → b.idx[i].toNat = group m (stream m b.ent) i.val
  finished : b.phase = .complete →
    ∀ i : Fin 24, i.val < m.n → b.idx[i].toNat = group m (stream m b.ent) i.val

/-- The command that a raw transaction carries to CMD, if it is a write to CMD (R81, R91). -/
def commandOf : Raw → Option Command
  | .cmd w => some (decodeCmd w)
  | .bus t w => if t = 0x1020 then some (decodeCmd w) else none

/-- The event stops a running encoding: a CLEAR, an ENTROPY_FAIL or a reset (R112, R140). -/
def aborts : Event → Prop
  | .host r => commandOf r = some .clear ∨ commandOf r = some .entropyFail
  | .seq => False
  | .rst => True

/-- The next step is a turn of the sequencer. -/
def seqTurn (s : State) : Prop := s.events = [] ∨ s.events.head? = some .seq

/-- An ENCODE of mode `m` would be accepted (R104). -/
def readyFor (b : Block) (m : Mode) : Prop := b.fatal = false ∧ b.phase = .idle ∧ b.entv = m.mask

/-- Two states agree on everything but the secrets ENT, L, C and IDX. -/
structure SameControl (s t : State) : Prop where
  events : s.events = t.events
  responses : s.responses = t.responses
  entv : s.block.entv = t.block.entv
  nwords : s.block.nwords = t.block.nwords
  phase : s.block.phase = t.block.phase
  j : s.block.j = t.block.j
  done : s.block.done = t.block.done
  fatal : s.block.fatal = t.block.fatal
  err : s.block.err = t.block.err

/-- Two states the host cannot tell apart: the secrets may differ, but an output that is valid may not (R56, R110). -/
def SameView (s t : State) : Prop :=
  SameControl s t ∧ (s.block.done = true → s.block.idx = t.block.idx)

end Sys2Proof.Machine
end

