-- ==== Sys2Proof/Certificates/Slice0/Obligations.lean ====
section
/-! DEFINITION. The statements for the provers. -/

open Sys2Proof Sys2Proof.Machine

/-! ### Decoding and encoding -/

/-- One word of every row, written out from R81 and R90, decodes to its instruction, and eight words that are no row are
rejected by name. -/
def Obligations.SpecWordsDecodeToTheirRows : Prop :=
  decode (.cmd 0x00000000) = .instr .nop ∧
  decode (.cmd 0x00000001) = .instr .clear ∧
  decode (.cmd 0x00001002) = .instr (.encode 16) ∧
  decode (.cmd 0x00000C02) = .instr .encode12 ∧
  decode (.cmd 0x00001802) = .instr .encode24 ∧
  decode (.cmd 0x00000003) = .instr .entropyFail ∧
  decode (.bus 0x101C 0xDEADBEEF) = .instr (.wrEnt 7 0xDEADBEEF) ∧
  decode (.bus 0x1020 0x00000007) = .instr (.wrCmd 7) ∧
  decode (.bus 0x0024 0) = .instr .rdStatus ∧
  decode (.bus 0x006C 0) = .instr (.rdIdxLo 11) ∧
  decode (.bus 0x009C 0) = .instr (.rdIdxHi 23) ∧
  decode (.bus 0x01BC 0) = .instr (.rdWordLo 11 3) ∧
  decode (.bus 0x027C 0) = .instr (.rdWordHi 23 3) ∧
  decode (.cmd 0x00000100) = .badCommand ∧
  decode (.cmd 0x00000012) = .badCommand ∧
  decode (.cmd 0x00010002) = .badCommand ∧
  decode (.cmd 0x00000007) = .badCommand ∧
  decode (.bus 0x0026 0) = .busErr .misaligned false ∧
  decode (.bus 0x00A0 0) = .busErr .reserved false ∧
  decode (.bus 0x1024 5) = .busErr .direction true ∧
  decode (.bus 0x0000 0) = .busErr .direction false

/-- Decoding an encoded well-formed instruction gives it back, with every operand at every value. -/
def Obligations.DecodeOfEncodeIsIdentity : Prop :=
  ∀ i : Instr, i.wf = true → decode (encode i) = .instr i

/-- What decodes to an instruction decodes to a well-formed one whose encoding is the raw transaction itself, but for the
data word a read carries along unused. -/
def Obligations.DecodedTransactionIsItsEncoding : Prop :=
  ∀ (r : Raw) (i : Instr), decode r = .instr i →
    i.wf = true ∧ (encode i = r ∨ ∃ t d, r = .bus t d ∧ busIsWrite t = false ∧ encode i = .bus t 0)

/-- The CMD words of R81, and BAD_COMMAND for every other word (R84, R85). -/
def Obligations.CommandWordsAreExactlyTheListedOnes : Prop :=
  ∀ w : Word,
    (decodeCmd w = .nop ↔ w = 0x00000000) ∧
    (decodeCmd w = .clear ↔ w = 0x00000001) ∧
    (∀ n : BitVec 8, decodeCmd w = .encode n ↔ w = 0x0000#16 ++ n ++ 0x02#8) ∧
    (decodeCmd w = .entropyFail ↔ w = 0x00000003) ∧
    (decodeCmd w = .badCommand ↔
      w.extractLsb' 16 16 ≠ 0 ∨ w.extractLsb' 4 4 ≠ 0 ∨ 4 ≤ (w.extractLsb' 0 4).toNat ∨
        (w.extractLsb' 8 8 ≠ 0 ∧ w.extractLsb' 0 4 ≠ 2))

/-- The BUS rows of R90 (match, mask) do not overlap, a code decodes to an instruction exactly when it matches one, and the
codes that do are exactly the registers of the map of R53 in their allowed direction, each with its fields. -/
def Obligations.BusRowsCoverExactlyTheRegisterMap : Prop :=
  ∀ (t : BusCode) (w : Word),
    ([(0x1000, 0x1FE3), (0x1020, 0x1FFF), (0x0024, 0x1FFF), (0x0040, 0x1FC3), (0x0080, 0x1FE3), (0x0100, 0x1F03),
      (0x0200, 0x1F83)] : List (BusCode × BusCode)).countP (fun row => t &&& row.2 == row.1)
      = (if (decodeBus t w).instr?.isSome then 1 else 0) ∧
    match regAt (busAddr t), busIsWrite t with
    | some (.ent j), true => ∃ j' : Fin 8, j'.val = j ∧ decodeBus t w = .instr (.wrEnt j' w)
    | some .cmd, true => decodeBus t w = .instr (.wrCmd w)
    | some .status, false => decodeBus t w = .instr .rdStatus
    | some (.idx i), false => ∃ p : Fin 24, p.val = i ∧
        decodeBus t w = .instr (if i < 16 then .rdIdxLo p else .rdIdxHi p)
    | some (.word i q), false => ∃ (p : Fin 24) (q' : Fin 4), p.val = i ∧ q'.val = q ∧
        decodeBus t w = .instr (if i < 16 then .rdWordLo p q' else .rdWordHi p q')
    | _, dir => ∃ c, decodeBus t w = .busErr c dir

/-! ### The step -/

/-- A pending transaction that decodes to an instruction is taken off and its instruction's meaning runs. -/
def Obligations.StepRunsTheDecodedInstruction : Prop :=
  ∀ (s : State) (r : Raw) (rest : List Event) (i : Instr),
    s.events = .host r :: rest → decode r = .instr i → step s = exec i { s with events := rest }

/-- A transaction placed by the host's own adapter is the next one to run. -/
def Obligations.PlacedTableWordRunsNext : Prop :=
  ∀ (s : State) (nbits w : Nat) (i : Instr),
    decodeTableWord nbits w = some i → step (s.withFetchWord nbits w) = exec i s

/-- A transaction that the map does not admit (misaligned or reserved address, wrong direction) gets BUSERR and changes
nothing of the block, not even ERR. A read gets read data 0; the response to a write carries no read data, which is the
model's reading of R51 and R52 (log entry 19). -/
def Obligations.UnadmittedTransactionGetsBusErr : Prop :=
  ∀ (s : State) (t : BusCode) (d : Word) (rest : List Event),
    s.events = .host (.bus t d) :: rest →
    (∀ reg, regAt (busAddr t) = some reg →
      busIsWrite t = match reg with
        | .ent _ => false
        | .cmd => false
        | .status => true
        | .idx _ => true
        | .word _ _ => true) →
    step s = .next
      { block := s.block, events := rest,
        responses := ⟨.busErr, if busIsWrite t = true then none else some 0⟩ :: s.responses }

/-- WR_CMD decodes its word and runs the command, and answers OKAY: a legal word's row runs, an illegal word sets ERR. The
same word as a CMD-format line or as a BUS write to CMD gives the same step. -/
def Obligations.CommandWriteRunsItsCommand : Prop :=
  ∀ (s : State) (w : Word) (rest : List Event),
    decode (.bus 0x1020 w) = .instr (.wrCmd w) ∧
    step { s with events := .host (.cmd w) :: rest } = step { s with events := .host (.bus 0x1020 w) :: rest } ∧
    (∀ i, decode (.cmd w) = .instr i → exec (.wrCmd w) s = exec i s) ∧
    (decode (.cmd w) = .badCommand → exec (.wrCmd w) s = .next
      { block := { s.block with err := .badCommand }, events := s.events
        responses := ⟨.okay, none⟩ :: s.responses }) ∧
    ∃ t, exec (.wrCmd w) s = .next t ∧ t.events = s.events ∧ t.responses = ⟨.okay, none⟩ :: s.responses

/-- The reset event, from any state: every element takes its value of R37, FATAL too, and STATUS is 0. That the responses
given and the events still to come stay is the model's choice (log entries 4 and 1). -/
def Obligations.ResetEventRestoresEveryElement : Prop :=
  ∀ (s : State) (rest : List Event), s.events = .rst :: rest →
    ∃ t, step s = .next t ∧ t.events = rest ∧ t.responses = s.responses ∧
      (∀ j : Fin 8, t.block.ent[j] = 0) ∧ t.block.entv = 0 ∧ t.block.nwords = 0 ∧ t.block.phase = .idle ∧
      t.block.j = 0 ∧ (∀ i : Fin 4, t.block.l[i] = 0) ∧ t.block.c = 0 ∧ (∀ i : Fin 24, t.block.idx[i] = 0) ∧
      t.block.done = false ∧ t.block.fatal = false ∧ t.block.err = .none ∧ statusWord t.block = 0 ∧
      t.block = State.reset.block

/-- With the block as reset leaves it: idle, STATUS reads 0, every output read gets BUSERR and an ENCODE is rejected for
want of entropy. -/
def Obligations.StateAfterReset : Prop :=
  ∀ s : State, s.block = State.reset.block →
    s.block.phase = .idle ∧ exec .rdStatus s = .next { s with responses := ⟨.okay, some 0⟩ :: s.responses } ∧
    (∀ i : Fin 24, exec (.rdIdxLo i) s = .next { s with responses := ⟨.busErr, some 0⟩ :: s.responses } ∧
      exec (.rdIdxHi i) s = .next { s with responses := ⟨.busErr, some 0⟩ :: s.responses } ∧
      ∀ q : Fin 4, exec (.rdWordLo i q) s = .next { s with responses := ⟨.busErr, some 0⟩ :: s.responses } ∧
        exec (.rdWordHi i q) s = .next { s with responses := ⟨.busErr, some 0⟩ :: s.responses }) ∧
    ∀ m : Mode, ∃ t, exec (.encode m.words) s = .next t ∧ t.block = { s.block with err := .entropyLength }

/-- With nothing pending an idle block does nothing and all state is kept. That this is a step is the model's choice (log
entry 3). -/
def Obligations.IdleBlockKeepsItsState : Prop :=
  ∀ s : State, s.events = [] → s.block.phase = .idle → step s = .next s

/-! ### Commands -/

/-- NOP, word `0x00000000`: no state changes, in every state. -/
def Obligations.NopChangesNothing : Prop :=
  decode (.cmd 0x00000000) = .instr .nop ∧
  ∀ s : State, exec .nop s =
    .next { block := s.block, events := s.events, responses := ⟨.okay, none⟩ :: s.responses }

/-- CLEAR, word `0x00000001`: in every state, everything but FATAL goes to its cleared value. -/
def Obligations.ClearZeroesAllButFatal : Prop :=
  decode (.cmd 0x00000001) = .instr .clear ∧
  ∀ s : State, exec .clear s =
    .next { block :=
              { ent := Vector.replicate 8 0, entv := 0, nwords := 0, phase := .idle, j := 0,
                l := Vector.replicate 4 0, c := 0, idx := Vector.replicate 24 0, done := false,
                fatal := s.block.fatal, err := .none }
            events := s.events, responses := ⟨.okay, none⟩ :: s.responses }

/-- ENTROPY_FAIL, word `0x00000003`: in every state, everything is scrubbed, FATAL is set and ERR is
ENTROPY_UNAVAILABLE. -/
def Obligations.EntropyFailScrubsAndLocks : Prop :=
  decode (.cmd 0x00000003) = .instr .entropyFail ∧
  ∀ s : State, exec .entropyFail s =
    .next { block :=
              { ent := Vector.replicate 8 0, entv := 0, nwords := 0, phase := .idle, j := 0,
                l := Vector.replicate 4 0, c := 0, idx := Vector.replicate 24 0, done := false,
                fatal := true, err := .entropyUnavailable }
            events := s.events, responses := ⟨.okay, none⟩ :: s.responses }

/-- ENCODE n, word `0x0000nn02`, all five branches in their order: FATAL_LOCKED and BUSY change only ERR, INVALID_CONFIG
and ENTROPY_LENGTH also clear the output (R113), and otherwise the encoding starts. -/
def Obligations.EncodeChecksThenStarts : Prop :=
  (∀ n : BitVec 8, decodeCmd (0x0000#16 ++ n ++ 0x02#8) = .encode n) ∧
  ∀ (n : BitVec 8) (s : State),
    let after (b : Block) : Host.Outcome State Fault Refusal :=
      .next { block := b, events := s.events, responses := ⟨.okay, none⟩ :: s.responses }
    let cleared (e : ErrCode) : Block :=
      { s.block with err := e, idx := Vector.replicate 24 0, done := false, nwords := 0 }
    (s.block.fatal = true → exec (.encode n) s = after { s.block with err := .fatalLocked }) ∧
    (s.block.fatal = false → s.block.phase ≠ .idle → exec (.encode n) s = after { s.block with err := .busy }) ∧
    (s.block.fatal = false → s.block.phase = .idle →
      (n ≠ 12 → n ≠ 24 → exec (.encode n) s = after (cleared .invalidConfig)) ∧
      (n = 12 → s.block.entv ≠ 0x0F → exec (.encode n) s = after (cleared .entropyLength)) ∧
      (n = 24 → s.block.entv ≠ 0xFF → exec (.encode n) s = after (cleared .entropyLength)) ∧
      (n = 12 ∧ s.block.entv = 0x0F ∨ n = 24 ∧ s.block.entv = 0xFF →
        exec (.encode n) s = after
          { s.block with nwords := n, idx := Vector.replicate 24 0, done := false, err := .none, phase := .load }))

/-- ENCODE.12 and ENCODE.24 start their encodings when the mask is exact, and in every state do what ENCODE with their
word count does. -/
def Obligations.ExactEncodeRowsStartTheirMode : Prop :=
  ∀ s : State,
    (s.block.fatal = false → s.block.phase = .idle → s.block.entv = 0x0F →
      exec .encode12 s = .next
        { block := { s.block with nwords := 12, idx := Vector.replicate 24 0, done := false, err := .none, phase := .load }
          events := s.events, responses := ⟨.okay, none⟩ :: s.responses }) ∧
    (s.block.fatal = false → s.block.phase = .idle → s.block.entv = 0xFF →
      exec .encode24 s = .next
        { block := { s.block with nwords := 24, idx := Vector.replicate 24 0, done := false, err := .none, phase := .load }
          events := s.events, responses := ⟨.okay, none⟩ :: s.responses }) ∧
    exec .encode12 s = exec (.encode 12) s ∧ exec .encode24 s = exec (.encode 24) s

/-- An illegal CMD word sets ERR to BAD_COMMAND and changes nothing else, in any state, written in either format. -/
def Obligations.IllegalCommandOnlySetsErr : Prop :=
  ∀ (s : State) (w : Word) (rest : List Event), decodeCmd w = .badCommand →
    exec (.wrCmd w) s = .next
      { block := { s.block with err := .badCommand }, events := s.events
        responses := ⟨.okay, none⟩ :: s.responses } ∧
    step { s with events := .host (.cmd w) :: rest } = .next
      { block := { s.block with err := .badCommand }, events := rest
        responses := ⟨.okay, none⟩ :: s.responses }

/-! ### Register accesses -/

/-- WR_ENT j, code `0x1000 | 4j`: rejected with FATAL_LOCKED, then with BUSY, changing only ERR; else ENT[j] takes the word
and ENTV[j] is set. -/
def Obligations.EntropyWriteStoresOrRejects : Prop :=
  ∀ (j : Fin 8) (w : Word) (s : State),
    decode (.bus (0x1000#13 ||| BitVec.ofNat 13 (4 * j.val)) w) = .instr (.wrEnt j w) ∧
    (s.block.fatal = true → exec (.wrEnt j w) s = .next
      { block := { s.block with err := .fatalLocked }, events := s.events
        responses := ⟨.okay, none⟩ :: s.responses }) ∧
    (s.block.fatal = false → s.block.phase ≠ .idle → exec (.wrEnt j w) s = .next
      { block := { s.block with err := .busy }, events := s.events
        responses := ⟨.okay, none⟩ :: s.responses }) ∧
    (s.block.fatal = false → s.block.phase = .idle →
      ∃ ent entv, exec (.wrEnt j w) s = .next
          { block := { s.block with ent := ent, entv := entv }, events := s.events
            responses := ⟨.okay, none⟩ :: s.responses } ∧
        (∀ k : Fin 8, ent[k] = if k = j then w else s.block.ent[k]) ∧
        ∀ k : Fin 8, entv.getLsbD k.val = (k == j || s.block.entv.getLsbD k.val))

/-- Writing two different entropy registers in either order gives the same block, in every state. -/
def Obligations.EntropyWriteOrderDoesNotMatter : Prop :=
  ∀ (b : Block) (i j : Fin 8) (v w : Word), i ≠ j →
    entropyBlock j w (entropyBlock i v b) = entropyBlock i v (entropyBlock j w b)

/-- LOADENT with the mode's B bytes, on an idle unlocked block with no entropy yet, leaves exactly those bytes as the
entropy and the mode's exact mask, so that ENCODE would be accepted. -/
def Obligations.LoadentDeliversTheEntropy : Prop :=
  ∀ (m : Mode) (bytes : List Byte) (s : State),
    bytes.length = m.bytes → s.block.fatal = false → s.block.phase = .idle → s.block.entv = 0 →
    s.events = loadEnt bytes →
    ∃ t, Sys2Proof.core.run (m.bytes / 4) s = .next t ∧ t.events = [] ∧ entBytes m t.block.ent = bytes ∧
      readyFor t.block m

/-- RD_STATUS, code `0x0024`, answers OKAY with every field in its place and the reserved bits 0, and changes nothing of
the block. -/
def Obligations.StatusReadShowsEveryField : Prop :=
  (∀ w : Word, decode (.bus 0x0024 w) = .instr .rdStatus) ∧
  ∀ s : State, ∃ d : Word,
    exec .rdStatus s = .next
      { block := s.block, events := s.events, responses := ⟨.okay, some d⟩ :: s.responses } ∧
    (fieldBusy d = true ↔ s.block.phase ≠ .idle) ∧ fieldDone d = s.block.done ∧ fieldFatal d = s.block.fatal ∧
    d.getLsbD 3 = false ∧ fieldErr d = errBits s.block.err ∧ fieldNwords d = s.block.nwords ∧
    fieldEntv d = s.block.entv ∧ d.extractLsb' 24 8 = 0

/-- RD_IDX i, code `0x0040 + 4i`, both rows: the index zero-extended if `DONE = 1` and `i < NWORDS`, else BUSERR with
data 0; nothing of the block changes. -/
def Obligations.IndexReadAnswersOnlyValidOutput : Prop :=
  (∀ (p : Fin 24) (w : Word), decode (.bus (BitVec.ofNat 13 (0x0040 + 4 * p.val)) w) =
    .instr (if p.val < 16 then .rdIdxLo p else .rdIdxHi p)) ∧
  ∀ (s : State) (p : Fin 24) (i : Instr), i = .rdIdxLo p ∨ i = .rdIdxHi p →
    (s.block.done = true → p.val < s.block.nwords.toNat → exec i s = .next
      { block := s.block, events := s.events
        responses := ⟨.okay, some (0#21 ++ s.block.idx[p])⟩ :: s.responses }) ∧
    (s.block.done = false ∨ s.block.nwords.toNat ≤ p.val → exec i s = .next
      { block := s.block, events := s.events, responses := ⟨.busErr, some 0⟩ :: s.responses })

/-- RD_WORD i, q, code `0x0100 + 16i + 4q`, both rows: bytes 4q to 4q + 3 of the ROM slot that IDX[i] selects, the first
in bits [31:24], if `DONE = 1` and `i < NWORDS`, else BUSERR with data 0; nothing of the block changes. -/
def Obligations.WordReadAnswersTheSlotWindow : Prop :=
  (∀ (p : Fin 24) (q : Fin 4) (w : Word), decode (.bus (BitVec.ofNat 13 (0x0100 + 16 * p.val + 4 * q.val)) w) =
    .instr (if p.val < 16 then .rdWordLo p q else .rdWordHi p q)) ∧
  ∀ (s : State) (p : Fin 24) (q : Fin 4) (i : Instr), i = .rdWordLo p q ∨ i = .rdWordHi p q →
    (s.block.done = true → p.val < s.block.nwords.toNat → ∃ d : Word,
      exec i s = .next
        { block := s.block, events := s.events, responses := ⟨.okay, some d⟩ :: s.responses } ∧
      ∀ k : Fin 4, d.extractLsb' (24 - 8 * k.val) 8 =
        (Config.wordlist s.block.idx[p].toFin)[4 * q.val + k.val]'(by omega)) ∧
    (s.block.done = false ∨ s.block.nwords.toNat ≤ p.val → exec i s = .next
      { block := s.block, events := s.events, responses := ⟨.busErr, some 0⟩ :: s.responses })

/-- Reads have no side effects: a read changes nothing of the block, and the same read again gets the same response. -/
def Obligations.ReadsHaveNoSideEffects : Prop :=
  ∀ (s : State) (t : BusCode) (d : Word), busIsWrite t = false →
    ∃ r, runHost (.bus t d) s = .next { s with responses := r :: s.responses } ∧
      runHost (.bus t d) { s with responses := r :: s.responses } =
        .next { s with responses := r :: r :: s.responses }

/-! ### Micro-steps -/

/-- LOAD. -/
def Obligations.LoadStepFillsTheLimbs : Prop :=
  ∀ (s : State) (m : Mode), seqTurn s → s.block.phase = .load → inMode s.block m →
    step s = .next
      { block :=
          { s.block with
            l := match m with
              | .w12 => #v[s.block.ent[0] ++ s.block.ent[1], s.block.ent[2] ++ s.block.ent[3], 0, 0]
              | .w24 => #v[s.block.ent[0] ++ s.block.ent[1], s.block.ent[2] ++ s.block.ent[3],
                  s.block.ent[4] ++ s.block.ent[5], s.block.ent[6] ++ s.block.ent[7]]
            phase := .checksum }
        events := s.events.tail, responses := s.responses }

/-- CHECKSUM: the latch takes the high nibble (12 words) or all (24 words) of byte 0 of the hash of exactly the mode's
entropy bytes. -/
def Obligations.ChecksumStepHashesExactlyTheEntropy : Prop :=
  ∀ (s : State) (m : Mode), seqTurn s → s.block.phase = .checksum → inMode s.block m →
    ∃ c, step s = .next
        { block := { s.block with c := c, phase := .last }, events := s.events.tail, responses := s.responses } ∧
      c.toNat = match m with
        | .w12 => (Config.hash256 ((s.block.ent.toList.take 4).flatMap wordBytes))[0].toNat / 16
        | .w24 => (Config.hash256 (s.block.ent.toList.flatMap wordBytes))[0].toNat

/-- LAST in both modes: the last index is the `r` low entropy bits above the `CS` checksum bits, the limbs are shifted
right by `r`, and J starts at `n - 2`. -/
def Obligations.LastStepWritesTheLastIndex : Prop :=
  ∀ s : State, seqTurn s → s.block.phase = .last →
    (s.block.nwords = 12 → ∃ last : Index, step s = .next
        { block := { s.block with idx := s.block.idx.set 11 last, l := shr .w12 7 s.block.l, j := 10, phase := .slice }
          events := s.events.tail, responses := s.responses } ∧
      last.toNat = s.block.l[1].toNat % 128 * 16 + s.block.c.toNat % 16) ∧
    (s.block.nwords = 24 → ∃ last : Index, step s = .next
        { block := { s.block with idx := s.block.idx.set 23 last, l := shr .w24 3 s.block.l, j := 22, phase := .slice }
          events := s.events.tail, responses := s.responses } ∧
      last.toNat = s.block.l[3].toNat % 8 * 256 + s.block.c.toNat)

/-- SLICE: IDX[J] takes the low 11 bits of the multi-limb integer, the limbs are shifted right by 11, and J counts down or,
at 0, the phase becomes COMPLETE. -/
def Obligations.SliceStepCutsOneGroup : Prop :=
  ∀ (s : State) (m : Mode), seqTurn s → s.block.phase = .slice → inMode s.block m →
    ∃ t, step s = .next t ∧ t.events = s.events.tail ∧ t.responses = s.responses ∧
      t.block = { s.block with
        idx := t.block.idx, l := shr m 11 s.block.l, j := t.block.j, phase := t.block.phase } ∧
      (∀ i : Fin 24, t.block.idx[i].toNat =
        if i.val = s.block.j.val then limbVal m s.block.l % 2048 else s.block.idx[i].toNat) ∧
      (s.block.j.val = 0 → t.block.phase = .complete ∧ t.block.j = s.block.j) ∧
      (s.block.j.val ≠ 0 → t.block.phase = .slice ∧ t.block.j.val + 1 = s.block.j.val)

/-- COMPLETE: DONE is set, the entropy, its mask and the datapath are zeroed, and NWORDS, IDX, ERR and FATAL stay. -/
def Obligations.CompleteStepDeliversAndScrubs : Prop :=
  ∀ s : State, seqTurn s → s.block.phase = .complete →
    step s = .next
      { block :=
          { ent := Vector.replicate 8 0, entv := 0, nwords := s.block.nwords, phase := .idle, j := 0,
            l := Vector.replicate 4 0, c := 0, idx := s.block.idx, done := true,
            fatal := s.block.fatal, err := s.block.err }
        events := s.events.tail, responses := s.responses }

/-! ### Laws of the datapath -/

/-- `VAL_k(SHR_k(L, s)) = VAL_k(L) >> s` for every shift count below the limb width. -/
def Obligations.LimbShiftIsIntegerShift : Prop :=
  ∀ (m : Mode) (k : Nat) (l : Vector Limb 4), 0 < k → k < 64 →
    limbVal m (shr m k l) = limbVal m l / 2 ^ k

/-- The limbs LOAD fills denote the entropy, byte 0 most significant. -/
def Obligations.LoadedLimbsDenoteTheEntropy : Prop :=
  ∀ (m : Mode) (ent : Vector Word 8), limbVal m (loadLimbs m ent) = entropyVal m ent

/-- After k micro-steps of an accepted ENCODE, with the host quiet, the phase and J are those of the fixed schedule: LOAD,
CHECKSUM, LAST, `n - 1` times SLICE with J from `n - 2` down to 0, COMPLETE, and idle after `n + 3`. That each step of a
quiet run is a micro-step is the model's weak fairness (log entry 1). -/
def Obligations.EncodeTakesExactlyNPlusThreeMicroSteps : Prop :=
  ∀ (m : Mode) (s : State) (k : Nat), s.events = [] → s.block.phase = .load → s.block.j = 0 → inMode s.block m →
    k ≤ m.n + 3 →
    ∃ t, Sys2Proof.core.run k s = .next t ∧ (t.block.phase, t.block.j.val) = scheduleAt m k ∧
      t.block.done = (s.block.done || k == m.n + 3)

/-- An encoding of entropy `e` during which the host is quiet runs to its end in `n + 3` micro-steps, and leaves DONE set
and, at every position j, the 11-bit group j of the combined stream `VAL(e) * 2^CS + C`. That it ends rests on the model's
weak fairness (log entry 1). -/
def Obligations.EncodingFollowsTheBitLayout : Prop :=
  ∀ (m : Mode) (s : State), s.events = [] → s.block.phase = .load → inMode s.block m →
    ∃ t, Sys2Proof.core.run (m.n + 3) s = .next t ∧ t.block.done = true ∧ t.block.phase = .idle ∧
      t.block.nwords = s.block.nwords ∧
      ∀ i : Fin 24, i.val < m.n → t.block.idx[i].toNat =
        (entropyVal m s.block.ent * 2 ^ m.cs + (checksumOf m s.block.ent).toNat) / 2 ^ (11 * (m.n - 1 - i.val)) % 2048

/-- The bit-layout law at COMPLETE, whatever the host does meanwhile: an encoding that was accepted with entropy `e` and
runs, never aborted, until the block is idle again leaves DONE set and, at every position j, the 11-bit group j of
`VAL(e) * 2^CS + C`. -/
def Obligations.EveryUnabortedEncodingDeliversTheBitLayout : Prop :=
  ∀ (m : Mode) (s t : State) (k : Nat), s.block.Inv → s.block.phase = .load → inMode s.block m →
    (∀ e ∈ s.events, ¬ aborts e) →
    (∀ k' ≤ k, ∃ u, Sys2Proof.core.run k' s = .next u ∧ u.block.phase ≠ .idle) →
    Sys2Proof.core.run (k + 1) s = .next t → t.block.phase = .idle →
    t.block.done = true ∧ inMode t.block m ∧
    ∀ i : Fin 24, i.val < m.n → t.block.idx[i].toNat =
      (entropyVal m s.block.ent * 2 ^ m.cs + (checksumOf m s.block.ent).toNat) / 2 ^ (11 * (m.n - 1 - i.val)) % 2048

/-- The bit-layout law step by step: each step that does not abort keeps a running encoding on its track, and
the COMPLETE micro-step leaves the output as the law says. -/
def Obligations.EveryInterleavingKeepsTheBitLayout : Prop :=
  ∀ (s t : State) (m : Mode), s.block.Inv → s.block.phase ≠ .idle → inMode s.block m → s.block.Tracks m →
    (∀ e, s.events.head? = some e → ¬ aborts e) → step s = .next t →
    (t.block.phase ≠ .idle ∧ t.block.ent = s.block.ent ∧ inMode t.block m ∧ t.block.Tracks m) ∨
    (t.block.phase = .idle ∧ t.block.done = true ∧ inMode t.block m ∧
      ∀ i : Fin 24, i.val < m.n → t.block.idx[i].toNat = group m (stream m s.block.ent) i.val)

/-- No bit beyond the groups still to write: in SLICE the limbs denote a value below `2^(11 (J + 1))`, and before COMPLETE
they are 0. (A bound; which bits they hold is `Tracks.sliced` of EveryInterleavingKeepsTheBitLayout.) -/
def Obligations.StepKeepsTheRemainingBitsLaw : Prop :=
  ∀ s t : State, s.block.Inv → s.block.Remaining → step s = .next t → t.block.Remaining

/-- The first index is the first 11 entropy bits; the last one is the last `r` entropy bits above the checksum. -/
def Obligations.FirstAndLastIndexComposition : Prop :=
  ∀ (m : Mode) (s t : State), s.events = [] → s.block.phase = .load → inMode s.block m →
    Sys2Proof.core.run (m.n + 3) s = .next t →
    t.block.idx[0].toNat = entropyVal m s.block.ent / 2 ^ (m.ent - 11) ∧
    ∀ i : Fin 24, i.val + 1 = m.n → t.block.idx[i].toNat =
      entropyVal m s.block.ent % 2 ^ m.r * 2 ^ m.cs + (checksumOf m s.block.ent).toNat

/-- The result depends on the mode's entropy bytes and the mode alone. -/
def Obligations.ResultDependsOnEntropyAndModeOnly : Prop :=
  ∀ (m : Mode) (s s' t t' : State), s.events = [] → s'.events = [] → s.block.phase = .load → s'.block.phase = .load →
    inMode s.block m → inMode s'.block m → entBytes m s.block.ent = entBytes m s'.block.ent →
    Sys2Proof.core.run (m.n + 3) s = .next t → Sys2Proof.core.run (m.n + 3) s' = .next t' →
    ∀ i : Fin 24, i.val < m.n → t.block.idx[i] = t'.block.idx[i]

/-- Round trip: the entropy, and the checksum recomputed from it, can be read back from the indices. -/
def Obligations.EntropyIsRecoveredFromIndices : Prop :=
  ∀ (m : Mode) (s t : State), s.events = [] → s.block.phase = .load → inMode s.block m →
    Sys2Proof.core.run (m.n + 3) s = .next t →
    recombine m t.block.idx / 2 ^ m.cs = entropyVal m s.block.ent ∧
    recombine m t.block.idx % 2 ^ m.cs = (checksumOf m s.block.ent).toNat

/-- Flipping one entropy bit always changes the index that holds it: the one at `n - 1 - p / 11`, where the bit stands at
position p of the combined stream. -/
def Obligations.FlippedEntropyBitChangesItsIndex : Prop :=
  ∀ (m : Mode) (s s' t t' : State) (bit : Nat) (i : Fin 24), s.events = [] → s'.events = [] →
    s.block.phase = .load → s'.block.phase = .load → inMode s.block m → inMode s'.block m →
    bit < m.ent → entropyVal m s.block.ent ^^^ entropyVal m s'.block.ent = 2 ^ bit →
    Sys2Proof.core.run (m.n + 3) s = .next t → Sys2Proof.core.run (m.n + 3) s' = .next t' →
    i.val = m.n - 1 - (bit + m.cs) / 11 → t.block.idx[i] ≠ t'.block.idx[i]

/-! ### Invariants and whole-machine rules -/

/-- The invariants of R38 (and what supports them) hold after reset. -/
def Obligations.InvariantsHoldAtReset : Prop :=
  State.reset.block.Inv ∧ State.reset.block.Remaining

/-- Every step keeps the invariants of R38, from every state that has them, and so they hold wherever a block comes from
reset by any events. -/
def Obligations.StepKeepsTheInvariants : Prop :=
  (∀ s t : State, s.block.Inv → step s = .next t → t.block.Inv) ∧
  ∀ (s t : State) (k : Nat), s.block = State.reset.block → Sys2Proof.core.run k s = .next t → t.block.Inv

/-- With the invariants, no step is ever refused: a sequencer that is running always has its step. That at PHASE IDLE a
pending turn of the sequencer, and a step with nothing pending, go on is the model's choice (log entries 2 and 3). -/
def Obligations.MachineIsNeverStuck : Prop :=
  ∀ s : State, s.block.Inv → ∃ t, step s = .next t

/-- Every accepted encoding reaches COMPLETE unless it is aborted: whatever the host does meanwhile, DONE is set within as
many steps as there are pending events and micro-steps. That the sequencer moves when no event is pending is the model's
weak fairness (log entry 1). -/
def Obligations.AcceptedEncodingCompletes : Prop :=
  ∀ (s : State) (m : Mode), s.block.Inv → s.block.phase ≠ .idle → inMode s.block m →
    (∀ e ∈ s.events, ¬ aborts e) →
    ∃ k t, k ≤ s.events.length + (m.n + 3) ∧ Sys2Proof.core.run k s = .next t ∧
      t.block.done = true ∧ t.block.phase = .idle ∧ inMode t.block m

/-- While an encoding runs, a host transaction that is not a CLEAR or ENTROPY_FAIL can change only ERR. -/
def Obligations.HostCannotDisturbARunningEncoding : Prop :=
  ∀ (s : State) (r : Raw), s.block.phase ≠ .idle → ¬ aborts (.host r) →
    ∃ t, runHost r s = .next t ∧ t.block = { s.block with err := t.block.err }

/-- FATAL is sticky: only a reset clears it, and only ENTROPY_FAIL sets it. -/
def Obligations.FatalIsSetByFailureAndClearedByResetOnly : Prop :=
  ∀ s t : State, step s = .next t → s.block.fatal ≠ t.block.fatal →
    (t.block.fatal = false ∧ s.events.head? = some .rst) ∨
    (t.block.fatal = true ∧ ∃ r, s.events.head? = some (.host r) ∧ commandOf r = some .entropyFail)

/-- After a reported entropy failure no encoding starts and no output becomes valid until a reset. -/
def Obligations.NoOutputAfterEntropyFailureUntilReset : Prop :=
  ∀ (s t : State) (k : Nat), s.block.Inv → s.block.fatal = true → Event.rst ∉ s.events →
    Sys2Proof.core.run k s = .next t → t.block.fatal = true ∧ t.block.done = false ∧ t.block.phase = .idle

/-- DONE is set by the COMPLETE micro-step and by nothing else. -/
def Obligations.OnlyCompleteSetsDone : Prop :=
  ∀ s t : State, step s = .next t → s.block.done = false → t.block.done = true →
    seqTurn s ∧ s.block.phase = .complete

/-- A valid output stays, whatever the step, until an ENCODE, a CLEAR, an ENTROPY_FAIL or a reset. -/
def Obligations.ValidOutputStaysUntilReplaced : Prop :=
  ∀ s t : State, s.block.done = true → s.block.phase = .idle →
    (∀ e, s.events.head? = some e → ¬ aborts e) →
    (∀ r n, s.events.head? = some (.host r) → commandOf r ≠ some (.encode n)) →
    step s = .next t →
    t.block.done = true ∧ t.block.phase = .idle ∧ t.block.nwords = s.block.nwords ∧ t.block.idx = s.block.idx

/-- Entropy is consumed only by COMPLETE, a CLEAR, an ENTROPY_FAIL or a reset, and then all of it: the only steps that
clear a bit of ENTV leave all 8 bits of ENTV and every ENT register 0, and ENT[j] changes only in these steps and in a
WR_ENT j that stores its word. So a rejected ENCODE consumes none. -/
def Obligations.EntropyIsConsumedOnlyByCompletionOrClearing : Prop :=
  ∀ (s t : State) (j : Fin 8), step s = .next t →
    let consumes : Prop := ((seqTurn s ∧ s.block.phase = .complete) ∨ ∃ e, s.events.head? = some e ∧ aborts e) ∧
      t.block.entv = 0 ∧ ∀ k : Fin 8, t.block.ent[k] = 0
    (s.block.entv.getLsbD j.val = true → t.block.entv.getLsbD j.val = false → consumes) ∧
    (t.block.ent[j] ≠ s.block.ent[j] → consumes ∨
      ∃ r w, s.events.head? = some (.host r) ∧ decode r = .instr (.wrEnt j w) ∧ t.block.ent[j] = w ∧
        t.block.entv.getLsbD j.val = true)

/-- Two states that differ only in secrets (ENT, L, C and an output not yet valid) answer alike and stay indistinguishable:
a step gives the same responses, flags and schedule, and only a COMPLETE micro-step lets results differ. -/
def Obligations.SecretsDoNotReachTheHostBeforeCompletion : Prop :=
  ∀ s t s' : State, s.block.Inv → SameView s t → step s = .next s' →
    ∃ t', step t = .next t' ∧ SameControl s' t' ∧ (s.block.phase ≠ .complete → SameView s' t')

/-! ### Word list, words and text -/

/-- The encoder's word sequence has exactly `n` elements, each the word of an entry of the word list. It is stated without
`DONE = 1` and without a well-formed word list: what a word is there is the model's choice (log entry 20). -/
def Obligations.OutputIsNWordsOfTheWordList : Prop :=
  ∀ (b : Block) (m : Mode), inMode b m →
    (words b).length = m.n ∧ ∀ w ∈ words b, ∃ i : Fin 2048, w = slotWord (Config.wordlist i)

/-- The length of TEXT: the lengths of the words and one space between each two. It is stated of every word list: what the
word of an ill-formed slot is, is the model's choice (log entry 20). -/
def Obligations.TextLengthLaw : Prop :=
  ∀ (wl : Fin 2048 → Slot) (is : List Index), is ≠ [] →
    (textOf wl is).length = ((wordsOf wl is).map List.length).sum + (is.length - 1)

/-- Unique parse: with a well-formed word list, two index sequences with the same TEXT are equal. -/
def Obligations.TextDeterminesTheIndices : Prop :=
  ∀ (wl : Fin 2048 → Slot) (is js : List Index), wordlistWf wl →
    textOf wl is = textOf wl js → is = js

/-! ### Instances -/

/-- A step of one instance leaves every other instance as it is, and steps of two instances commute. That a system is a list
of states and a step acts on one of them is the model's choice (log entry 21). -/
def Obligations.InstancesAreIndependent : Prop :=
  ∀ (sys sys' : List State) (k : Nat), stepInstance k sys = .next sys' →
    sys'.length = sys.length ∧ (∀ i, i ≠ k → sys'[i]? = sys[i]?) ∧
    ∀ (i : Nat) (a b : List State), i ≠ k → stepInstance i sys = .next a → stepInstance i sys' = .next b →
      stepInstance k a = .next b
end

