-- ==== Sys2Proof/Laws/Decode.lean ====
section
/-! SUPPORT. What decoding can answer, and equations between bit vectors as equations between their bits. -/

namespace Sys2Proof

open Machine

/-- Two bit vectors are equal when their bits are. -/
theorem bitVec_eq_iff_bits {w : Nat} (x y : BitVec w) : x = y ↔ ∀ i < w, x.getLsbD i = y.getLsbD i :=
  ⟨fun h _ _ => by rw [h], fun h => BitVec.eq_of_getLsbD_eq (fun i hi => h i hi)⟩

/-- A bounded quantifier over bits, one bit taken off the top: with a numeral bound, `simp` lists the bits. -/
theorem forall_bit_lt_succ {n : Nat} {p : Nat → Prop} : (∀ i < n + 1, p i) ↔ (∀ i < n, p i) ∧ p n := by
  constructor
  · exact fun h => ⟨fun i hi => h i (by omega), h n (by omega)⟩
  · rintro ⟨h, hn⟩ i hi
    rcases Nat.lt_succ_iff_lt_or_eq.mp hi with hlt | rfl
    · exact h i hlt
    · exact hn

section Rows

variable (t : BusCode)

theorem busRow_wrEnt : busRow t 0x1000 0x1FE3 = true ↔
    t.extractLsb' 5 8 = 0x80 ∧ t.extractLsb' 0 2 = 0 := by
  simp only [busRow, beq_iff_eq, bitVec_eq_iff_bits, forall_bit_lt_succ, Nat.not_lt_zero, false_implies, implies_true,
    true_and]
  simp
  tauto

theorem busRow_rdIdxLo : busRow t 0x0040 0x1FC3 = true ↔
    t.extractLsb' 6 7 = 0x01 ∧ t.extractLsb' 0 2 = 0 := by
  simp only [busRow, beq_iff_eq, bitVec_eq_iff_bits, forall_bit_lt_succ, Nat.not_lt_zero, false_implies, implies_true,
    true_and]
  simp
  tauto

theorem busRow_rdIdxHi : busRow t 0x0080 0x1FE3 = true ↔
    t.extractLsb' 5 8 = 0x04 ∧ t.extractLsb' 0 2 = 0 := by
  simp only [busRow, beq_iff_eq, bitVec_eq_iff_bits, forall_bit_lt_succ, Nat.not_lt_zero, false_implies, implies_true,
    true_and]
  simp
  tauto

theorem busRow_rdWordLo : busRow t 0x0100 0x1F03 = true ↔
    t.extractLsb' 8 5 = 0x01 ∧ t.extractLsb' 0 2 = 0 := by
  simp only [busRow, beq_iff_eq, bitVec_eq_iff_bits, forall_bit_lt_succ, Nat.not_lt_zero, false_implies, implies_true,
    true_and]
  simp
  tauto

theorem busRow_rdWordHi : busRow t 0x0200 0x1F83 = true ↔
    t.extractLsb' 7 6 = 0x04 ∧ t.extractLsb' 0 2 = 0 := by
  simp only [busRow, beq_iff_eq, bitVec_eq_iff_bits, forall_bit_lt_succ, Nat.not_lt_zero, false_implies, implies_true,
    true_and]
  simp
  tauto

/-- The rows with a mask of all ones, WR_CMD and RD_STATUS. -/
theorem busRow_exact (v : BusCode) : busRow t v 0x1FFF = true ↔ t = v := by
  simp only [busRow, beq_iff_eq]
  rw [show (0x1FFF : BusCode) = BitVec.allOnes 13 by decide, BitVec.and_allOnes]

end Rows

/-- Which row a code that decodes matches, with the fields that row fixes. -/
theorem decodeBus_cases (t : BusCode) (d : Word) :
    (t.extractLsb' 5 8 = 0x80 ∧ t.extractLsb' 0 2 = 0 ∧ decodeBus t d = .instr (.wrEnt (busField3 t 2) d)) ∨
    (t = 0x1020 ∧ decodeBus t d = .instr (.wrCmd d)) ∨
    (t = 0x0024 ∧ decodeBus t d = .instr .rdStatus) ∨
    (t.extractLsb' 6 7 = 0x01 ∧ t.extractLsb' 0 2 = 0 ∧
      decodeBus t d = .instr (.rdIdxLo (posLo (busField4 t 2)))) ∨
    (t.extractLsb' 5 8 = 0x04 ∧ t.extractLsb' 0 2 = 0 ∧
      decodeBus t d = .instr (.rdIdxHi (posHi (busField3 t 2)))) ∨
    (t.extractLsb' 8 5 = 0x01 ∧ t.extractLsb' 0 2 = 0 ∧
      decodeBus t d = .instr (.rdWordLo (posLo (busField4 t 4)) (busField2 t 2))) ∨
    (t.extractLsb' 7 6 = 0x04 ∧ t.extractLsb' 0 2 = 0 ∧
      decodeBus t d = .instr (.rdWordHi (posHi (busField3 t 4)) (busField2 t 2))) ∨
    decodeBus t d = .busErr (busCause t) (busIsWrite t) := by
  unfold decodeBus
  simp only [busRow_wrEnt, busRow_exact, busRow_rdIdxLo, busRow_rdIdxHi, busRow_rdWordLo, busRow_rdWordHi]
  split_ifs <;> simp only [*, true_and, true_or, or_true]

/-- Every command but ENCODE has its word's ARG zero, and no legal word has a bit set in RSV0 or RSV1 or an OP above 3. -/
theorem decodeCmd_legal {w : Word} (h : decodeCmd w ≠ .badCommand) :
    cmdRsv1 w = 0 ∧ cmdRsv0 w = 0 ∧ (cmdOp w).toNat < 4 ∧ (cmdOp w = 2 ∨ cmdArg w = 0) := by
  unfold decodeCmd at h
  split at h
  · exact absurd rfl h
  split at h
  · exact absurd rfl h
  split at h
  · exact absurd rfl h
  next h1 h2 h3 =>
    push Not at h1 h3
    exact ⟨h1.1, h1.2, by omega, (em (cmdOp w = 2)).imp id h3⟩

/-- No word is a row of both formats: a BUS row's code, read as a CMD word, is illegal. So `tableRaw` needs no format tag. -/
theorem cmd_and_bus_rows_disjoint (t : BusCode) (d : Word) (i : Instr) (h : decodeBus t d = .instr i) :
    decodeCmd (t.setWidth 32) = .badCommand := by
  by_contra hbad
  obtain ⟨-, h0, -, harg⟩ := decodeCmd_legal hbad
  have hrsv : ∀ k, 4 ≤ k → k < 8 → t.getLsbD k = false := by
    intro k h4 h8
    have := congrArg (fun v => BitVec.getLsbD v (k - 4)) h0
    simpa [cmdRsv0, show k - 4 < 4 by omega, show 4 + (k - 4) = k by omega, show k < 32 by omega] using this
  have hargz : t.extractLsb' 0 2 = 0 → ∀ k, 8 ≤ k → k < 13 → t.getLsbD k = false := by
    intro h1 k h8 h13
    have ha : cmdArg (t.setWidth 32) = 0 := by
      refine harg.resolve_left fun h => ?_
      have htrue := congrArg (fun v => BitVec.getLsbD v 1) h
      have hfalse := congrArg (fun v => BitVec.getLsbD v 1) h1
      simp [cmdOp] at htrue hfalse
      simp [htrue] at hfalse
    have := congrArg (fun v => BitVec.getLsbD v (k - 8)) ha
    simpa [cmdArg, show k - 8 < 8 by omega, show 8 + (k - 8) = k by omega, show k < 32 by omega] using this
  -- a bit the row fixes to 1, against the field that a legal command word has zero
  have clash : ∀ k, t.getLsbD k = true → t.getLsbD k = false → False := fun k h1 h2 => by simp [h1] at h2
  rcases decodeBus_cases t d with ⟨ha, hb, -⟩ | ⟨rfl, -⟩ | ⟨rfl, -⟩ | ⟨ha, hb, -⟩ | ⟨ha, hb, -⟩ | ⟨ha, hb, -⟩ |
    ⟨ha, hb, -⟩ | he
  · exact clash 12 (by simpa using congrArg (fun v => BitVec.getLsbD v 7) ha) (hargz hb 12 (by omega) (by omega))
  · exact absurd (hrsv 5 (by omega) (by omega)) (by decide)
  · exact absurd (hrsv 5 (by omega) (by omega)) (by decide)
  · exact clash 6 (by simpa using congrArg (fun v => BitVec.getLsbD v 0) ha) (hrsv 6 (by omega) (by omega))
  · exact clash 7 (by simpa using congrArg (fun v => BitVec.getLsbD v 2) ha) (hrsv 7 (by omega) (by omega))
  · exact clash 8 (by simpa using congrArg (fun v => BitVec.getLsbD v 0) ha) (hargz hb 8 (by omega) (by omega))
  · exact clash 9 (by simpa using congrArg (fun v => BitVec.getLsbD v 2) ha) (hargz hb 9 (by omega) (by omega))
  · rw [he] at h
    cases h

end Sys2Proof
end

