-- ==== Sys2Proof/Laws/State.lean ====
section
/-! SUPPORT. One lemma per field per update, each true by rfl: later proofs never unfold a record update. -/

namespace Sys2Proof.Machine

section StateUpdates

variable (s : State) (b : Block) (es : List Event) (r : Response)

@[simp] theorem State.setBlock_block : (s.setBlock b).block = b := rfl
@[simp] theorem State.setBlock_events : (s.setBlock b).events = s.events := rfl
@[simp] theorem State.setBlock_responses : (s.setBlock b).responses = s.responses := rfl
@[simp] theorem State.setEvents_block : (s.setEvents es).block = s.block := rfl
@[simp] theorem State.setEvents_events : (s.setEvents es).events = es := rfl
@[simp] theorem State.setEvents_responses : (s.setEvents es).responses = s.responses := rfl
@[simp] theorem State.respond_block : (s.respond r).block = s.block := rfl
@[simp] theorem State.respond_events : (s.respond r).events = s.events := rfl
@[simp] theorem State.respond_responses : (s.respond r).responses = r :: s.responses := rfl

end StateUpdates

section BlockUpdates

variable (b : Block) (e : ErrCode) (m : Mode) (j : Fin 8) (w : Word)

@[simp] theorem reject_ent : (reject e b).ent = b.ent := rfl
@[simp] theorem reject_entv : (reject e b).entv = b.entv := rfl
@[simp] theorem reject_nwords : (reject e b).nwords = b.nwords := rfl
@[simp] theorem reject_phase : (reject e b).phase = b.phase := rfl
@[simp] theorem reject_j : (reject e b).j = b.j := rfl
@[simp] theorem reject_l : (reject e b).l = b.l := rfl
@[simp] theorem reject_c : (reject e b).c = b.c := rfl
@[simp] theorem reject_idx : (reject e b).idx = b.idx := rfl
@[simp] theorem reject_done : (reject e b).done = b.done := rfl
@[simp] theorem reject_fatal : (reject e b).fatal = b.fatal := rfl
@[simp] theorem reject_err : (reject e b).err = e := rfl

@[simp] theorem clearOutput_ent : (clearOutput b).ent = b.ent := rfl
@[simp] theorem clearOutput_entv : (clearOutput b).entv = b.entv := rfl
@[simp] theorem clearOutput_nwords : (clearOutput b).nwords = 0 := rfl
@[simp] theorem clearOutput_phase : (clearOutput b).phase = b.phase := rfl
@[simp] theorem clearOutput_j : (clearOutput b).j = b.j := rfl
@[simp] theorem clearOutput_l : (clearOutput b).l = b.l := rfl
@[simp] theorem clearOutput_c : (clearOutput b).c = b.c := rfl
@[simp] theorem clearOutput_idx : (clearOutput b).idx = zeroIdx := rfl
@[simp] theorem clearOutput_done : (clearOutput b).done = false := rfl
@[simp] theorem clearOutput_fatal : (clearOutput b).fatal = b.fatal := rfl
@[simp] theorem clearOutput_err : (clearOutput b).err = b.err := rfl

@[simp] theorem scrub_ent : (scrub b).ent = zeroEnt := rfl
@[simp] theorem scrub_entv : (scrub b).entv = 0 := rfl
@[simp] theorem scrub_nwords : (scrub b).nwords = 0 := rfl
@[simp] theorem scrub_phase : (scrub b).phase = .idle := rfl
@[simp] theorem scrub_j : (scrub b).j = 0 := rfl
@[simp] theorem scrub_l : (scrub b).l = zeroLimbs := rfl
@[simp] theorem scrub_c : (scrub b).c = 0 := rfl
@[simp] theorem scrub_idx : (scrub b).idx = zeroIdx := rfl
@[simp] theorem scrub_done : (scrub b).done = false := rfl
@[simp] theorem scrub_fatal : (scrub b).fatal = b.fatal := rfl
@[simp] theorem scrub_err : (scrub b).err = b.err := rfl

@[simp] theorem accept_ent : (accept m b).ent = b.ent := rfl
@[simp] theorem accept_entv : (accept m b).entv = b.entv := rfl
@[simp] theorem accept_nwords : (accept m b).nwords = m.words := rfl
@[simp] theorem accept_phase : (accept m b).phase = .load := rfl
@[simp] theorem accept_j : (accept m b).j = b.j := rfl
@[simp] theorem accept_l : (accept m b).l = b.l := rfl
@[simp] theorem accept_c : (accept m b).c = b.c := rfl
@[simp] theorem accept_idx : (accept m b).idx = zeroIdx := rfl
@[simp] theorem accept_done : (accept m b).done = false := rfl
@[simp] theorem accept_fatal : (accept m b).fatal = b.fatal := rfl
@[simp] theorem accept_err : (accept m b).err = .none := rfl

@[simp] theorem setEntropy_ent : (setEntropy j w b).ent = b.ent.set j.val w := rfl
@[simp] theorem setEntropy_entv : (setEntropy j w b).entv = b.entv ||| (1#8 <<< j.val) := rfl
@[simp] theorem setEntropy_nwords : (setEntropy j w b).nwords = b.nwords := rfl
@[simp] theorem setEntropy_phase : (setEntropy j w b).phase = b.phase := rfl
@[simp] theorem setEntropy_j : (setEntropy j w b).j = b.j := rfl
@[simp] theorem setEntropy_l : (setEntropy j w b).l = b.l := rfl
@[simp] theorem setEntropy_c : (setEntropy j w b).c = b.c := rfl
@[simp] theorem setEntropy_idx : (setEntropy j w b).idx = b.idx := rfl
@[simp] theorem setEntropy_done : (setEntropy j w b).done = b.done := rfl
@[simp] theorem setEntropy_fatal : (setEntropy j w b).fatal = b.fatal := rfl
@[simp] theorem setEntropy_err : (setEntropy j w b).err = b.err := rfl

@[simp] theorem clearBlock_ent : (clearBlock b).ent = zeroEnt := rfl
@[simp] theorem clearBlock_entv : (clearBlock b).entv = 0 := rfl
@[simp] theorem clearBlock_nwords : (clearBlock b).nwords = 0 := rfl
@[simp] theorem clearBlock_phase : (clearBlock b).phase = .idle := rfl
@[simp] theorem clearBlock_j : (clearBlock b).j = 0 := rfl
@[simp] theorem clearBlock_l : (clearBlock b).l = zeroLimbs := rfl
@[simp] theorem clearBlock_c : (clearBlock b).c = 0 := rfl
@[simp] theorem clearBlock_idx : (clearBlock b).idx = zeroIdx := rfl
@[simp] theorem clearBlock_done : (clearBlock b).done = false := rfl
@[simp] theorem clearBlock_fatal : (clearBlock b).fatal = b.fatal := rfl
@[simp] theorem clearBlock_err : (clearBlock b).err = .none := rfl

@[simp] theorem failBlock_ent : (failBlock b).ent = zeroEnt := rfl
@[simp] theorem failBlock_entv : (failBlock b).entv = 0 := rfl
@[simp] theorem failBlock_nwords : (failBlock b).nwords = 0 := rfl
@[simp] theorem failBlock_phase : (failBlock b).phase = .idle := rfl
@[simp] theorem failBlock_j : (failBlock b).j = 0 := rfl
@[simp] theorem failBlock_l : (failBlock b).l = zeroLimbs := rfl
@[simp] theorem failBlock_c : (failBlock b).c = 0 := rfl
@[simp] theorem failBlock_idx : (failBlock b).idx = zeroIdx := rfl
@[simp] theorem failBlock_done : (failBlock b).done = false := rfl
@[simp] theorem failBlock_fatal : (failBlock b).fatal = true := rfl
@[simp] theorem failBlock_err : (failBlock b).err = .entropyUnavailable := rfl

@[simp] theorem loadStep_ent : (loadStep m b).ent = b.ent := rfl
@[simp] theorem loadStep_entv : (loadStep m b).entv = b.entv := rfl
@[simp] theorem loadStep_nwords : (loadStep m b).nwords = b.nwords := rfl
@[simp] theorem loadStep_phase : (loadStep m b).phase = .checksum := rfl
@[simp] theorem loadStep_j : (loadStep m b).j = b.j := rfl
@[simp] theorem loadStep_l : (loadStep m b).l = loadLimbs m b.ent := rfl
@[simp] theorem loadStep_c : (loadStep m b).c = b.c := rfl
@[simp] theorem loadStep_idx : (loadStep m b).idx = b.idx := rfl
@[simp] theorem loadStep_done : (loadStep m b).done = b.done := rfl
@[simp] theorem loadStep_fatal : (loadStep m b).fatal = b.fatal := rfl
@[simp] theorem loadStep_err : (loadStep m b).err = b.err := rfl

@[simp] theorem checksumStep_ent : (checksumStep m b).ent = b.ent := rfl
@[simp] theorem checksumStep_entv : (checksumStep m b).entv = b.entv := rfl
@[simp] theorem checksumStep_nwords : (checksumStep m b).nwords = b.nwords := rfl
@[simp] theorem checksumStep_phase : (checksumStep m b).phase = .last := rfl
@[simp] theorem checksumStep_j : (checksumStep m b).j = b.j := rfl
@[simp] theorem checksumStep_l : (checksumStep m b).l = b.l := rfl
@[simp] theorem checksumStep_c : (checksumStep m b).c = chk m (hashByte m b.ent) := rfl
@[simp] theorem checksumStep_idx : (checksumStep m b).idx = b.idx := rfl
@[simp] theorem checksumStep_done : (checksumStep m b).done = b.done := rfl
@[simp] theorem checksumStep_fatal : (checksumStep m b).fatal = b.fatal := rfl
@[simp] theorem checksumStep_err : (checksumStep m b).err = b.err := rfl

@[simp] theorem last12Step_ent : (last12Step b).ent = b.ent := rfl
@[simp] theorem last12Step_entv : (last12Step b).entv = b.entv := rfl
@[simp] theorem last12Step_nwords : (last12Step b).nwords = b.nwords := rfl
@[simp] theorem last12Step_phase : (last12Step b).phase = .slice := rfl
@[simp] theorem last12Step_j : (last12Step b).j = 10 := rfl
@[simp] theorem last12Step_l : (last12Step b).l = shr .w12 7 b.l := rfl
@[simp] theorem last12Step_c : (last12Step b).c = b.c := rfl
@[simp] theorem last12Step_idx : (last12Step b).idx = b.idx.set 11 (lastIndex12 b.l[1] b.c) := rfl
@[simp] theorem last12Step_done : (last12Step b).done = b.done := rfl
@[simp] theorem last12Step_fatal : (last12Step b).fatal = b.fatal := rfl
@[simp] theorem last12Step_err : (last12Step b).err = b.err := rfl

@[simp] theorem last24Step_ent : (last24Step b).ent = b.ent := rfl
@[simp] theorem last24Step_entv : (last24Step b).entv = b.entv := rfl
@[simp] theorem last24Step_nwords : (last24Step b).nwords = b.nwords := rfl
@[simp] theorem last24Step_phase : (last24Step b).phase = .slice := rfl
@[simp] theorem last24Step_j : (last24Step b).j = 22 := rfl
@[simp] theorem last24Step_l : (last24Step b).l = shr .w24 3 b.l := rfl
@[simp] theorem last24Step_c : (last24Step b).c = b.c := rfl
@[simp] theorem last24Step_idx : (last24Step b).idx = b.idx.set 23 (lastIndex24 b.l[3] b.c) := rfl
@[simp] theorem last24Step_done : (last24Step b).done = b.done := rfl
@[simp] theorem last24Step_fatal : (last24Step b).fatal = b.fatal := rfl
@[simp] theorem last24Step_err : (last24Step b).err = b.err := rfl

@[simp] theorem completeStep_ent : (completeStep b).ent = zeroEnt := rfl
@[simp] theorem completeStep_entv : (completeStep b).entv = 0 := rfl
@[simp] theorem completeStep_nwords : (completeStep b).nwords = b.nwords := rfl
@[simp] theorem completeStep_phase : (completeStep b).phase = .idle := rfl
@[simp] theorem completeStep_j : (completeStep b).j = 0 := rfl
@[simp] theorem completeStep_l : (completeStep b).l = zeroLimbs := rfl
@[simp] theorem completeStep_c : (completeStep b).c = 0 := rfl
@[simp] theorem completeStep_idx : (completeStep b).idx = b.idx := rfl
@[simp] theorem completeStep_done : (completeStep b).done = true := rfl
@[simp] theorem completeStep_fatal : (completeStep b).fatal = b.fatal := rfl
@[simp] theorem completeStep_err : (completeStep b).err = b.err := rfl

@[simp] theorem sliceStep_ent : (sliceStep m b).ent = b.ent := by
  unfold sliceStep; split <;> rfl
@[simp] theorem sliceStep_entv : (sliceStep m b).entv = b.entv := by
  unfold sliceStep; split <;> rfl
@[simp] theorem sliceStep_nwords : (sliceStep m b).nwords = b.nwords := by
  unfold sliceStep; split <;> rfl
@[simp] theorem sliceStep_phase : (sliceStep m b).phase = if b.j = 0 then .complete else b.phase := by
  unfold sliceStep; split <;> rfl
@[simp] theorem sliceStep_j : (sliceStep m b).j = if b.j = 0 then b.j else predJ b.j := by
  unfold sliceStep; split <;> rfl
@[simp] theorem sliceStep_l : (sliceStep m b).l = shr m 11 b.l := by
  unfold sliceStep; split <;> rfl
@[simp] theorem sliceStep_c : (sliceStep m b).c = b.c := by
  unfold sliceStep; split <;> rfl
@[simp] theorem sliceStep_idx : (sliceStep m b).idx = b.idx.set b.j.val ((lowLimb m b.l).setWidth 11) := by
  unfold sliceStep; split <;> rfl
@[simp] theorem sliceStep_done : (sliceStep m b).done = b.done := by
  unfold sliceStep; split <;> rfl
@[simp] theorem sliceStep_fatal : (sliceStep m b).fatal = b.fatal := by
  unfold sliceStep; split <;> rfl
@[simp] theorem sliceStep_err : (sliceStep m b).err = b.err := by
  unfold sliceStep; split <;> rfl

end BlockUpdates

end Sys2Proof.Machine
end

