-- ==== Sys2Proof/Laws/Ops.lean ====
section
/-! SUPPORT. One lemma per shared operation, saying all it can do. -/

namespace Sys2Proof.Machine

theorem busy_iff (b : Block) : busy b = true ↔ b.phase ≠ .idle := by simp [busy]

theorem busy_false_iff (b : Block) : busy b = false ↔ b.phase = .idle := by simp [busy]

theorem ofWords_eq_some {w : BitVec 8} {m : Mode} : Mode.ofWords w = some m ↔ w = m.words := by
  cases m <;> simp only [Mode.ofWords, Mode.words, Mode.n] <;> constructor
  · intro h
    split at h
    · next hw => simpa using hw
    · split at h <;> simp at h
  · rintro rfl
    decide
  · intro h
    split at h
    · simp at h
    · split at h
      · next hw => simpa using hw
      · simp at h
  · rintro rfl
    decide

@[simp] theorem ofWords_words (m : Mode) : Mode.ofWords m.words = some m := ofWords_eq_some.mpr rfl

theorem inMode_iff {b : Block} {m : Mode} : inMode b m ↔ b.nwords = m.words := ofWords_eq_some

theorem words_eq_12_or_24 (m : Mode) : m.words = 12 ∨ m.words = 24 := by cases m <;> decide

theorem words_toNat (m : Mode) : m.words.toNat = m.n := by cases m <;> decide

/-- The five ends of an ENCODE, each with the condition it has (R104). -/
theorem encodeBlock_cases (n : BitVec 8) (b : Block) :
    (b.fatal = true ∧ encodeBlock n b = reject .fatalLocked b) ∨
    (b.fatal = false ∧ b.phase ≠ .idle ∧ encodeBlock n b = reject .busy b) ∨
    (b.fatal = false ∧ b.phase = .idle ∧ Mode.ofWords n = none ∧
      encodeBlock n b = clearOutput (reject .invalidConfig b)) ∨
    (∃ m, b.fatal = false ∧ b.phase = .idle ∧ Mode.ofWords n = some m ∧ b.entv ≠ m.mask ∧
      encodeBlock n b = clearOutput (reject .entropyLength b)) ∨
    (∃ m, readyFor b m ∧ Mode.ofWords n = some m ∧ encodeBlock n b = accept m b) := by
  unfold encodeBlock
  by_cases hf : b.fatal = true
  · exact .inl ⟨hf, by simp [hf]⟩
  simp only [Bool.not_eq_true] at hf
  by_cases hb : b.phase = .idle
  · have hbusy := (busy_false_iff b).mpr hb
    cases hm : Mode.ofWords n with
    | none => exact .inr (.inr (.inl ⟨hf, hb, rfl, by simp [hf, hbusy]⟩))
    | some m =>
      by_cases hv : b.entv = m.mask
      · exact .inr (.inr (.inr (.inr ⟨m, ⟨hf, hb, hv⟩, rfl, by simp [hf, hbusy, hv]⟩)))
      · exact .inr (.inr (.inr (.inl ⟨m, hf, hb, rfl, hv, by simp [hf, hbusy, hv]⟩)))
  · exact .inr (.inl ⟨hf, hb, by simp [hf, (busy_iff b).mpr hb]⟩)

/-- The three ends of an entropy write, each with the condition it has (R100). -/
theorem entropyBlock_cases (j : Fin 8) (w : Word) (b : Block) :
    (b.fatal = true ∧ entropyBlock j w b = reject .fatalLocked b) ∨
    (b.fatal = false ∧ b.phase ≠ .idle ∧ entropyBlock j w b = reject .busy b) ∨
    (b.fatal = false ∧ b.phase = .idle ∧ entropyBlock j w b = setEntropy j w b) := by
  unfold entropyBlock
  by_cases hf : b.fatal = true
  · exact .inl ⟨hf, by simp [hf]⟩
  simp only [Bool.not_eq_true] at hf
  by_cases hb : b.phase = .idle
  · exact .inr (.inr ⟨hf, hb, by simp [hf, (busy_false_iff b).mpr hb]⟩)
  · exact .inr (.inl ⟨hf, hb, by simp [hf, (busy_iff b).mpr hb]⟩)

/-- A row's instruction runs the command it stands for. -/
theorem exec_rowOfCommand {c : Command} {i : Instr} (h : rowOfCommand c = .instr i) (s : State) :
    exec i s = finishWrite (runCommand c s.block) s := by
  cases c with
  | nop => simp only [rowOfCommand, Decoded.instr.injEq] at h; subst h; rfl
  | clear => simp only [rowOfCommand, Decoded.instr.injEq] at h; subst h; rfl
  | entropyFail => simp only [rowOfCommand, Decoded.instr.injEq] at h; subst h; rfl
  | badCommand => simp [rowOfCommand] at h
  | encode n =>
    simp only [rowOfCommand] at h
    split at h
    · next hn => simp only [Decoded.instr.injEq] at h; subst h; subst hn; rfl
    split at h
    · next hn => simp only [Decoded.instr.injEq] at h; subst h; subst hn; rfl
    · simp only [Decoded.instr.injEq] at h; subst h; rfl

/-- Only BAD_COMMAND has no row, and a command is never a BUSERR. -/
theorem rowOfCommand_cases (c : Command) :
    (∃ i, rowOfCommand c = .instr i) ∨ (c = .badCommand ∧ rowOfCommand c = .badCommand) := by
  cases c with
  | badCommand => exact .inr ⟨rfl, rfl⟩
  | encode n =>
    left
    simp only [rowOfCommand]
    split
    · exact ⟨_, rfl⟩
    split <;> exact ⟨_, rfl⟩
  | nop => exact .inl ⟨_, rfl⟩
  | clear => exact .inl ⟨_, rfl⟩
  | entropyFail => exact .inl ⟨_, rfl⟩

/-- A transaction that decodes to an instruction runs its meaning. -/
theorem runHost_instr {r : Raw} {i : Instr} (h : decode r = .instr i) (s : State) : runHost r s = exec i s := by
  simp only [runHost, h]

/-- A transaction the map does not admit gets BUSERR and nothing else (R55). -/
theorem runHost_busErr {r : Raw} {c : BusCause} {write : Bool} (h : decode r = .busErr c write) (s : State) :
    runHost r s = .next (s.respond (busErrFor write)) := by
  simp only [runHost, h, finishBusErr]

/-- A CMD-format word runs the command it decodes to, whatever that is (R101). -/
theorem runHost_cmd (w : Word) (s : State) :
    runHost (.cmd w) s = finishWrite (runCommand (decodeCmd w) s.block) s := by
  rcases rowOfCommand_cases (decodeCmd w) with ⟨i, h⟩ | ⟨hc, h⟩
  · exact (runHost_instr (r := .cmd w) h s).trans (exec_rowOfCommand h s)
  · simp only [runHost, decode, h, runBadCommand]
    rw [hc]
    rfl

/-- All a host transaction can do: it is always answered, takes no event, and its effect on the block is that of the command
it carries, of an entropy write, or none. -/
theorem runHost_cases (r : Raw) (s : State) :
    ∃ t, runHost r s = .next t ∧ t.events = s.events ∧ (∃ a, t.responses = a :: s.responses) ∧
      ((∃ c, commandOf r = some c ∧ t.block = runCommand c s.block) ∨
       (commandOf r = none ∧ ∃ j w, decode r = .instr (.wrEnt j w) ∧ t.block = entropyBlock j w s.block) ∨
       (commandOf r = none ∧ t.block = s.block)) := by
  cases r with
  | cmd w => exact ⟨_, runHost_cmd w s, rfl, ⟨_, rfl⟩, .inl ⟨decodeCmd w, rfl, rfl⟩⟩
  | bus t d =>
    by_cases ht : t = 0x1020
    · subst ht
      have h : runHost (.bus 0x1020 d) s = finishWrite (runCommand (decodeCmd d) s.block) s := rfl
      exact ⟨_, h, rfl, ⟨_, rfl⟩, .inl ⟨decodeCmd d, rfl, rfl⟩⟩
    have hc : commandOf (.bus t d) = none := by simp only [commandOf, if_neg ht]
    rcases decodeBus_cases t d with ⟨-, -, h⟩ | ⟨h, -⟩ | ⟨-, h⟩ | ⟨-, -, h⟩ | ⟨-, -, h⟩ | ⟨-, -, h⟩ | ⟨-, -, h⟩ | h
    · have hw : runHost (.bus t d) s = finishWrite (entropyBlock (busField3 t 2) d s.block) s :=
        runHost_instr (r := .bus t d) h s
      exact ⟨_, hw, rfl, ⟨_, rfl⟩, .inr (.inl ⟨hc, _, _, h, rfl⟩)⟩
    · exact absurd h ht
    · exact ⟨s.respond _, runHost_instr (r := .bus t d) h s, rfl, ⟨_, rfl⟩, .inr (.inr ⟨hc, rfl⟩)⟩
    · exact ⟨s.respond _, runHost_instr (r := .bus t d) h s, rfl, ⟨_, rfl⟩, .inr (.inr ⟨hc, rfl⟩)⟩
    · exact ⟨s.respond _, runHost_instr (r := .bus t d) h s, rfl, ⟨_, rfl⟩, .inr (.inr ⟨hc, rfl⟩)⟩
    · exact ⟨s.respond _, runHost_instr (r := .bus t d) h s, rfl, ⟨_, rfl⟩, .inr (.inr ⟨hc, rfl⟩)⟩
    · exact ⟨s.respond _, runHost_instr (r := .bus t d) h s, rfl, ⟨_, rfl⟩, .inr (.inr ⟨hc, rfl⟩)⟩
    · exact ⟨s.respond _, runHost_busErr (r := .bus t d) h s, rfl, ⟨_, rfl⟩, .inr (.inr ⟨hc, rfl⟩)⟩

/-- All a micro-step can do, phase by phase (R130). -/
theorem microStep_cases {b b' : Block} (h : microStep b = some b') :
    (b.phase = .idle ∧ b' = b) ∨
    (∃ m, inMode b m ∧ b.phase = .load ∧ b' = loadStep m b) ∨
    (∃ m, inMode b m ∧ b.phase = .checksum ∧ b' = checksumStep m b) ∨
    (∃ m, inMode b m ∧ b.phase = .last ∧ b' = lastStep m b) ∨
    (∃ m, inMode b m ∧ b.phase = .slice ∧ b' = sliceStep m b) ∨
    (b.phase = .complete ∧ b' = completeStep b) := by
  unfold microStep at h
  cases hp : b.phase <;> simp only [hp, Option.some.injEq, Option.map_eq_some_iff] at h
  case idle => exact .inl ⟨rfl, h.symm⟩
  case complete => simp [h.symm]
  all_goals
    obtain ⟨m, hm, hb⟩ := h
    have hmode : inMode b m := hm
    simp only [reduceCtorEq, false_and, and_false, exists_false, false_or, or_false, true_and]
    exact ⟨m, hmode, hb.symm⟩

/-- In a mode the sequencer always has its micro-step (R130). -/
theorem microStep_isSome {b : Block} {m : Mode} (h : inMode b m) : ∃ b', microStep b = some b' := by
  unfold microStep
  unfold inMode at h
  cases b.phase <;> simp [h]

/-- The micro-step of each phase of a mode (R130). -/
theorem microStep_of_phase {b : Block} {m : Mode} (hm : inMode b m) :
    (b.phase = .load → microStep b = some (loadStep m b)) ∧
    (b.phase = .checksum → microStep b = some (checksumStep m b)) ∧
    (b.phase = .last → microStep b = some (lastStep m b)) ∧
    (b.phase = .slice → microStep b = some (sliceStep m b)) ∧
    (b.phase = .complete → microStep b = some (completeStep b)) := by
  unfold inMode at hm
  refine ⟨?_, ?_, ?_, ?_, ?_⟩ <;> intro hp <;> simp [microStep, hp, hm]

/-- The two ends of an output read (R110, R111). -/
theorem readOutput_cases (b : Block) (i : Fin 24) (d : Word) :
    (b.done = true ∧ i.val < b.nwords.toNat ∧ readOutput b i d = readOkay d) ∨
    ((b.done = false ∨ b.nwords.toNat ≤ i.val) ∧ readOutput b i d = readBusErr) := by
  unfold readOutput readable
  cases hd : b.done
  · exact .inr ⟨.inl rfl, by simp⟩
  · rcases Nat.lt_or_ge i.val b.nwords.toNat with h | h
    · exact .inl ⟨rfl, h, by simp [h]⟩
    · exact .inr ⟨.inr h, by simp [Nat.not_lt.mpr h]⟩

/-- ERR never holds a reserved code (R201). -/
theorem errBits_le (e : ErrCode) : (errBits e).toNat ≤ 6 := by cases e <;> decide

end Sys2Proof.Machine
end

