-- ==== Sys2Proof/Laws/Datapath.lean ====
section
/-! SUPPORT. The datapath's values as natural numbers. -/

namespace Sys2Proof.Machine

/-- The elements of a register file, in index order. -/
theorem toList_eq_ofFn {α : Type} {n : Nat} (v : Vector α n) : v.toList = List.ofFn fun i : Fin n => v[i] :=
  List.ext_getElem (by simp) (by simp)

/-- ENT0 to ENT7 in entropy order (R57). -/
theorem ent_toList (ent : Vector Word 8) :
    ent.toList = [ent[0], ent[1], ent[2], ent[3], ent[4], ent[5], ent[6], ent[7]] := by
  rw [toList_eq_ofFn]
  rfl

/-- The limbs, most significant first (R29). -/
theorem limbs_toList (l : Vector Limb 4) : l.toList = [l[0], l[1], l[2], l[3]] := by
  rw [toList_eq_ofFn]
  rfl

theorem limbVal_w12 (l : Vector Limb 4) : limbVal .w12 l = l[0].toNat * 2 ^ 64 + l[1].toNat := by
  simp [limbVal, limbs_toList, Mode.limbs, Mode.ent, Mode.n]

theorem limbVal_w24 (l : Vector Limb 4) :
    limbVal .w24 l = ((l[0].toNat * 2 ^ 64 + l[1].toNat) * 2 ^ 64 + l[2].toNat) * 2 ^ 64 + l[3].toNat := by
  simp [limbVal, limbs_toList, Mode.limbs, Mode.ent, Mode.n]

/-- A shifted limb: its own high bits, and above them the low bits of the limb before it (R131). -/
theorem shiftLimb_toNat {s : Nat} (hs : s < 64) (above limb : Limb) :
    (shiftLimb s above limb).toNat = above.toNat % 2 ^ s * 2 ^ (64 - s) + limb.toNat / 2 ^ s := by
  have hpow : (2 : Nat) ^ 64 = 2 ^ (64 - s) * 2 ^ s := by rw [← pow_add]; congr 1; omega
  have hlt : limb.toNat / 2 ^ s < 2 ^ (64 - s) := by
    rw [Nat.div_lt_iff_lt_mul (by positivity), ← hpow]
    exact limb.isLt
  rw [shiftLimb, BitVec.toNat_or, BitVec.toNat_ushiftRight, BitVec.toNat_shiftLeft, Nat.shiftLeft_eq,
    Nat.shiftRight_eq_div_pow, hpow, mul_comm above.toNat, Nat.mul_mod_mul_left, Nat.or_comm,
    ← Nat.two_pow_add_eq_or_of_lt hlt, mul_comm]

theorem words_lt (m : Mode) : m.n ≤ 24 := by cases m <;> decide

/-- The constants of R6 and the identity of R7, from the derived definitions. -/
theorem mode_constants :
    (Mode.w12.ent = 128 ∧ Mode.w12.bytes = 16 ∧ Mode.w12.limbs = 2 ∧ Mode.w12.cs = 4 ∧ Mode.w12.tot = 132 ∧
      Mode.w12.r = 7 ∧ Mode.w12.rmask = 0x7F) ∧
    (Mode.w24.ent = 256 ∧ Mode.w24.bytes = 32 ∧ Mode.w24.limbs = 4 ∧ Mode.w24.cs = 8 ∧ Mode.w24.tot = 264 ∧
      Mode.w24.r = 3 ∧ Mode.w24.rmask = 0x07) := by decide

theorem ent_add_cs (m : Mode) : m.ent + m.cs = 11 * m.n := by cases m <;> decide

theorem chk_toNat_lt (m : Mode) (h : Byte) : (chk m h).toNat < 2 ^ m.cs := by
  cases m
  · have := (h.extractLsb' 4 4).isLt
    simp only [chk, BitVec.toNat_setWidth]
    have hcs : (2 : Nat) ^ Mode.w12.cs = 16 := by decide
    omega
  · exact h.isLt

/-- The low 11 bits of the integer are those of its least significant limb (R138). -/
theorem lowLimb_mod (m : Mode) (l : Vector Limb 4) : (lowLimb m l).toNat % 2048 = limbVal m l % 2048 := by
  cases m
  · rw [limbVal_w12]
    simp only [lowLimb]
    omega
  · rw [limbVal_w24]
    simp only [lowLimb]
    omega

/-- Byte `m` of a register as a number (R57). -/
theorem wordByte_toNat (w : Word) (m : Nat) : (wordByte w m).toNat = w.toNat / 2 ^ (24 - 8 * m) % 256 := by
  simp [wordByte, Nat.shiftRight_eq_div_pow]

/-- Four bytes of a register read on after `acc` are the register (R57). -/
theorem foldl_wordBytes (w : Word) (acc : Nat) :
    (wordBytes w).foldl (fun acc b => acc * 256 + b.toNat) acc = acc * 2 ^ 32 + w.toNat := by
  simp [wordBytes, wordByte_toNat]
  have := w.isLt
  omega

/-- `E[i]` as a number (R57). -/
theorem entLimb_toNat (ent : Vector Word 8) (i : Fin 4) : (entLimb ent i).toNat =
    (ent[2 * i.val]'(by omega)).toNat * 2 ^ 32 + (ent[2 * i.val + 1]'(by omega)).toNat := by
  rw [entLimb, BitVec.toNat_append, Nat.shiftLeft_eq, Nat.mul_comm, ← Nat.two_pow_add_eq_or_of_lt (BitVec.isLt _)]

/-- The bytes of a window, first one most significant (R59). -/
theorem packWord_byte (a b c d : Byte) :
    (packWord a b c d).extractLsb' 24 8 = a ∧ (packWord a b c d).extractLsb' 16 8 = b ∧
    (packWord a b c d).extractLsb' 8 8 = c ∧ (packWord a b c d).extractLsb' 0 8 = d := by
  refine ⟨?_, ?_, ?_, ?_⟩ <;> refine BitVec.eq_of_getLsbD_eq fun i hi => ?_ <;>
    simp only [packWord, BitVec.getLsbD_extractLsb', BitVec.getLsbD_append]
  · simp [hi, show ¬ 24 + i < 8 by omega, show ¬ 24 + i - 8 < 8 by omega, show ¬ 24 + i - 8 - 8 < 8 by omega,
      show 24 + i - 8 - 8 - 8 = i by omega]
  · simp [hi, show ¬ 16 + i < 8 by omega, show ¬ 16 + i - 8 < 8 by omega, show 16 + i - 8 - 8 = i by omega]
  · simp [hi]
  · simp [hi]

end Sys2Proof.Machine
end

