-- ==== Sys2Proof/Laws/PerInstr.lean ====
section
/-! SUPPORT. The round trip, instruction by instruction. -/

namespace Sys2Proof.Laws.RoundTrip

/-- Decoding the encoded instruction gives it back, if it is well-formed. -/
def Statement (i : Instr) : Prop := i.wf = true → decode (encode i) = .instr i

theorem nop : Statement .nop := fun _ => by decide

theorem clear : Statement .clear := fun _ => by decide

theorem encode : ∀ n, Statement (.encode n) := by
  unfold Statement
  decide

theorem encode12 : Statement .encode12 := fun _ => by decide

theorem encode24 : Statement .encode24 := fun _ => by decide

theorem entropyFail : Statement .entropyFail := fun _ => by decide

theorem wrEnt (j : Fin 8) (w : Word) : Statement (.wrEnt j w) := fun _ => by
  have hrow : ∀ j : Fin 8, busRow (0x1000#13 ||| BitVec.ofNat 13 (4 * j.val)) 0x1000 0x1FE3 = true ∧
      busField3 (0x1000#13 ||| BitVec.ofNat 13 (4 * j.val)) 2 = j := by decide
  obtain ⟨h, hj⟩ := hrow j
  simp only [Sys2Proof.encode, decode, decodeBus, h, hj, ite_true]

theorem wrCmd (w : Word) : Statement (.wrCmd w) := fun _ => rfl

theorem rdStatus : Statement .rdStatus := fun _ => by decide

theorem rdIdxLo : ∀ i, Statement (.rdIdxLo i) := by
  unfold Statement
  decide

theorem rdIdxHi : ∀ i, Statement (.rdIdxHi i) := by
  unfold Statement
  decide

theorem rdWordLo : ∀ i q, Statement (.rdWordLo i q) := by
  unfold Statement
  decide

theorem rdWordHi : ∀ i q, Statement (.rdWordHi i q) := by
  unfold Statement
  decide

end Sys2Proof.Laws.RoundTrip
end

