-- ==== Sys2Proof/Laws/Step.lean ====
section
/-! SUPPORT. All a step can do, once. -/

namespace Sys2Proof.Machine

/-- A step with a host transaction in front runs it. -/
theorem step_host {s : State} {r : Raw} {rest : List Event} (h : s.events = .host r :: rest) :
    step s = runHost r (s.setEvents rest) := by simp [step, runNext, h, runEvent]

/-- A step with a reset in front resets the block. -/
theorem step_rst {s : State} {rest : List Event} (h : s.events = .rst :: rest) :
    step s = .next ((s.setEvents rest).setBlock Block.reset) := by simp [step, runNext, h, runEvent, resetBlock]

/-- A turn of the sequencer is its micro-step, with the turn taken off the events if it stood there. -/
theorem step_seqTurn {s : State} (h : seqTurn s) {b : Block} (hb : microStep s.block = some b) :
    step s = .next { block := b, events := s.events.tail, responses := s.responses } := by
  rcases h with h | h
  · simp [step, runNext, h, runSeq, hb, State.setBlock]
  · obtain ⟨rest, hr⟩ := List.head?_eq_some_iff.mp h
    simp [step, runNext, hr, runEvent, runSeq, hb, State.setBlock, State.setEvents]

/-- If a step answers a next state: a turn of the sequencer ran its micro-step, or a host transaction ran (and was
answered), or the block was reset; and the event it took, if one was pending, is gone. -/
theorem step_cases {s t : State} (h : step s = .next t) :
    t.events = s.events.tail ∧
    ((seqTurn s ∧ microStep s.block = some t.block ∧ t.responses = s.responses) ∨
     (∃ r, s.events.head? = some (.host r) ∧ runHost r (s.setEvents s.events.tail) = .next t) ∨
     (s.events.head? = some .rst ∧ t.block = Block.reset ∧ t.responses = s.responses)) := by
  cases he : s.events with
  | nil =>
    have ht : seqTurn s := .inl he
    cases hm : microStep s.block with
    | none => simp [step, runNext, he, runSeq, hm] at h
    | some b =>
      rw [step_seqTurn ht hm] at h
      cases h
      exact ⟨by simp [he], .inl ⟨ht, rfl, rfl⟩⟩
  | cons e rest =>
    cases e with
    | host r =>
      rw [step_host he] at h
      obtain ⟨t', ht', hev, -, -⟩ := runHost_cases r (s.setEvents rest)
      obtain rfl : t' = t := by rw [ht'] at h; cases h; rfl
      exact ⟨by simpa using hev, .inr (.inl ⟨r, rfl, h⟩)⟩
    | seq =>
      have ht : seqTurn s := .inr (by simp [he])
      cases hm : microStep s.block with
      | none => simp [step, runNext, he, runEvent, runSeq, hm] at h
      | some b =>
        rw [step_seqTurn ht hm] at h
        cases h
        exact ⟨by simp [he], .inl ⟨ht, rfl, rfl⟩⟩
    | rst =>
      rw [step_rst he] at h
      cases h
      exact ⟨rfl, .inr (.inr ⟨rfl, rfl, rfl⟩)⟩

/-- The same, down to the block: what each kind of step makes of it. -/
theorem step_block_cases {s t : State} (h : step s = .next t) :
    (seqTurn s ∧ microStep s.block = some t.block) ∨
    (∃ r c, s.events.head? = some (.host r) ∧ commandOf r = some c ∧ t.block = runCommand c s.block) ∨
    (∃ r j w, s.events.head? = some (.host r) ∧ commandOf r = none ∧ decode r = .instr (.wrEnt j w) ∧
      t.block = entropyBlock j w s.block) ∨
    (∃ r, s.events.head? = some (.host r) ∧ commandOf r = none ∧ t.block = s.block) ∨
    (s.events.head? = some .rst ∧ t.block = Block.reset) := by
  rcases (step_cases h).2 with ⟨ht, hm, -⟩ | ⟨r, hr, hrun⟩ | ⟨hr, hb, -⟩
  · exact .inl ⟨ht, hm⟩
  · obtain ⟨t', ht', -, -, hc⟩ := runHost_cases r (s.setEvents s.events.tail)
    obtain rfl : t' = t := by rw [ht'] at hrun; cases hrun; rfl
    rcases hc with ⟨c, hc, hb⟩ | ⟨hn, j, w, hd, hb⟩ | ⟨hn, hb⟩
    · exact .inr (.inl ⟨r, c, hr, hc, by simpa using hb⟩)
    · exact .inr (.inr (.inl ⟨r, j, w, hr, hn, hd, by simpa using hb⟩))
    · exact .inr (.inr (.inr (.inl ⟨r, hr, hn, by simpa using hb⟩)))
  · exact .inr (.inr (.inr (.inr ⟨hr, hb⟩)))

/-- A run of one more step starts with a step. -/
theorem run_succ {k : Nat} {s t : State} (h : Sys2Proof.core.run (k + 1) s = .next t) :
    ∃ u, step s = .next u ∧ Sys2Proof.core.run k u = .next t := by
  simp only [Host.Core.run] at h
  cases hs : Sys2Proof.core.step s with
  | next u => rw [hs] at h; exact ⟨u, hs, h⟩
  | fault f => rw [hs] at h; cases h
  | refused r => rw [hs] at h; cases h

/-- A step is a run of one step. -/
theorem run_one {s t : State} (h : step s = .next t) : Sys2Proof.core.run 1 s = .next t := by
  simp only [Host.Core.run]
  rw [show Sys2Proof.core.step s = .next t from h]

/-- Runs compose. -/
theorem run_add {a : Nat} (b : Nat) {s t : State} (h : Sys2Proof.core.run a s = .next t) :
    Sys2Proof.core.run (a + b) s = Sys2Proof.core.run b t := by
  induction a generalizing s with
  | zero => cases h; rw [Nat.zero_add]
  | succ a ih =>
    rw [Nat.add_right_comm]
    simp only [Host.Core.run] at h ⊢
    cases hs : Sys2Proof.core.step s with
    | next u => rw [hs] at h; exact ih h
    | fault f => rw [hs] at h; cases h
    | refused r => rw [hs] at h; cases h

end Sys2Proof.Machine
end

