-- ==== Sys2Proof/Tests/Slice0.lean ====
section
/-! SUPPORT. Tests whose expected results are the spec's own vectors (95_test_vectors.md and the rules' examples), and for
every statement with hypotheses a concrete case that meets them. -/

namespace Sys2Proof.Tests

open Sys2Proof.Machine

/-! ### States the tests start from -/

/-- The entropy `00 01 .. 0F` of V-D5, ENT4..ENT7 zero. -/
def inc16 : Vector Word 8 := #v[0x00010203, 0x04050607, 0x08090A0B, 0x0C0D0E0F, 0, 0, 0, 0]

/-- The entropy `00 01 .. 1F` of V-D6. -/
def inc32 : Vector Word 8 :=
  #v[0x00010203, 0x04050607, 0x08090A0B, 0x0C0D0E0F, 0x10111213, 0x14151617, 0x18191A1B, 0x1C1D1E1F]

/-- An idle block whose entropy is loaded for the mode. -/
def ready (m : Mode) : Block :=
  match m with
  | .w12 => { Block.reset with ent := inc16, entv := 0x0F }
  | .w24 => { Block.reset with ent := inc32, entv := 0xFF }

/-- An accepted encoding of the mode, no micro-step run. -/
def running (m : Mode) : Block := { ready m with nwords := m.words, phase := .load }

/-- A completed encoding whose indices are all 3. -/
def finished (m : Mode) : Block :=
  match m with
  | .w12 => { Block.reset with nwords := 12, done := true
                               idx := #v[3, 3, 3, 3, 3, 3, 3, 3, 3, 3, 3, 3, 0, 0, 0, 0, 0, 0, 0, 0, 0, 0, 0, 0] }
  | .w24 => { Block.reset with nwords := 24, done := true, idx := Vector.replicate 24 3 }

/-- The locked block after ENTROPY_FAIL. -/
def locked : Block := { Block.reset with fatal := true, err := .entropyUnavailable }

/-- A running 12-word encoding before its LAST: the limbs and latch of the V-D5 trace. -/
def beforeLast12 : Block :=
  { running .w12 with phase := .last, l := #v[0x0001020304050607, 0x08090A0B0C0D0E0F, 0, 0], c := 0x0B }

/-- A running 24-word encoding before its LAST: the limbs and latch of the V-D6 trace. -/
def beforeLast24 : Block :=
  { running .w24 with
      phase := .last
      l := #v[0x0001020304050607, 0x08090A0B0C0D0E0F, 0x1011121314151617, 0x18191A1B1C1D1E1F], c := 0x63 }

/-- The 12-word encoding before its first SLICE (V-D5 trace). -/
def beforeSlice12 : Block :=
  { running .w12 with phase := .slice, j := 10, l := #v[0x0000020406080A0C, 0x0E10121416181A1C, 0, 0], c := 0x0B
                      idx := zeroIdx.set 11 251 }

/-- The 24-word encoding before its first SLICE (V-D6 trace). -/
def beforeSlice24 : Block :=
  { running .w24 with
      phase := .slice, j := 22, c := 0x63, idx := zeroIdx.set 23 1891
      l := #v[0x000020406080A0C0, 0xE10121416181A1C1, 0xE20222426282A2C2, 0xE30323436383A3C3] }

/-- An encoding whose last SLICE is done. -/
def beforeComplete (m : Mode) : Block := { running m with phase := .complete, c := 1 }

/-- A state with the block, nothing pending and no response given. -/
def on (b : Block) : State := { block := b, events := [], responses := [] }

/-- The same with events pending. -/
def pending (b : Block) (es : List Event) : State := { block := b, events := es, responses := [] }

/-- What a test looks at: STATUS, the newest response, or `none` where the machine stops. -/
def seen (o : Host.Outcome State Fault Refusal) : Option (Word × Option Response) :=
  match o with
  | .next t => some (statusWord t.block, t.responses.head?)
  | .fault _ => none
  | .refused _ => none

/-- The machine goes on. -/
def goesOn (o : Host.Outcome State Fault Refusal) : Bool :=
  match o with
  | .next _ => true
  | .fault _ => false
  | .refused _ => false

theorem exists_next {o : Host.Outcome State Fault Refusal} (h : goesOn o = true) : ∃ t, o = .next t := by
  cases o with
  | next t => exact ⟨t, rfl⟩
  | fault f => cases h
  | refused r => cases h

/-! ### Well-formedness: an ill-formed term for each check -/

theorem test_wf_refuses :
    (Instr.encode 12).wf = false ∧ (Instr.encode 24).wf = false ∧ (Instr.rdIdxLo 16).wf = false ∧
    (Instr.rdIdxHi 15).wf = false ∧ (Instr.rdWordLo 16 0).wf = false ∧ (Instr.rdWordHi 15 3).wf = false := by decide

/-! ### Decoding: words written out from R80, R81 and R90 -/

/-- CMD words as RSV1, ARG, RSV0, OP. -/
theorem test_decode_cmd_rows :
    decode (.cmd (0b0000000000000000#16 ++ 0b00000000#8 ++ 0b0000#4 ++ 0b0000#4)) = .instr .nop ∧
    decode (.cmd (0b0000000000000000#16 ++ 0b00000000#8 ++ 0b0000#4 ++ 0b0001#4)) = .instr .clear ∧
    decode (.cmd (0b0000000000000000#16 ++ 0b11111111#8 ++ 0b0000#4 ++ 0b0010#4)) = .instr (.encode 255) ∧
    decode (.cmd (0b0000000000000000#16 ++ 0b00001100#8 ++ 0b0000#4 ++ 0b0010#4)) = .instr .encode12 ∧
    decode (.cmd (0b0000000000000000#16 ++ 0b00011000#8 ++ 0b0000#4 ++ 0b0010#4)) = .instr .encode24 ∧
    decode (.cmd (0b0000000000000000#16 ++ 0b00000000#8 ++ 0b0000#4 ++ 0b0011#4)) = .instr .entropyFail := by decide

/-- BUS codes as the direction and the twelve address bits. -/
theorem test_decode_bus_rows :
    decode (.bus 0b1000000010100#13 7) = .instr (.wrEnt 5 7) ∧
    decode (.bus 0b1000000100000#13 7) = .instr (.wrCmd 7) ∧
    decode (.bus 0b0000000100100#13 0) = .instr .rdStatus ∧
    decode (.bus 0b0000001111100#13 0) = .instr (.rdIdxLo 15) ∧
    decode (.bus 0b0000010000000#13 0) = .instr (.rdIdxHi 16) ∧
    decode (.bus 0b0000111110100#13 0) = .instr (.rdWordLo 15 1) ∧
    decode (.bus 0b0001000001000#13 0) = .instr (.rdWordHi 16 2) := by decide

/-- The words of V-C5 to V-C9 have no row. -/
theorem test_decode_illegal_words :
    [0x00000100, 0x00000012, 0x00010002, 0x00000007, 0x0000000F].map (fun w => decode (.cmd w))
      = List.replicate 5 .badCommand := by decide

/-- V-B1 to V-B9: the codes and what is wrong with each. -/
theorem test_decode_unadmitted_codes :
    [0x0026, 0x1001, 0x0028, 0x00A0, 0x0FFC, 0x1024, 0x0000, 0x0020, 0x1040].map (fun t => decode (.bus t 5))
      = [.busErr .misaligned false, .busErr .misaligned true, .busErr .reserved false, .busErr .reserved false,
         .busErr .reserved false, .busErr .direction true, .busErr .direction false, .busErr .direction false,
         .busErr .direction true] := by decide

/-- The opcode table's words, alone and with a data word, and one instruction after reset. -/
theorem test_table_words :
    decodeTableWord 32 0x00001802 = some .encode24 ∧ decodeTableWord 16 0x101C = some (.wrEnt 7 0) ∧
    decodeTableWord 48 0x00000C021020 = some (.wrCmd 0x00000C02) ∧ decodeTableWord 32 0x0026 = none ∧
    seen (step (State.reset.withFetchWord 32 0x00000003)) = some (0x00000034, some writeOkay) := by decide

/-! ### The datapath -/

/-- V-SHR1 (which tells R131's order from the rejected reading V-SHR10), V-SHR2, V-SHR5 and V-SHR9. -/
theorem test_shr :
    shr .w12 7 #v[1, 0x8000000000000000, 0, 0] = #v[0, 0x0300000000000000, 0, 0] ∧
    shr .w12 11 #v[0xFFFFFFFFFFFFFFFF, 0, 0, 0] = #v[0x001FFFFFFFFFFFFF, 0xFFE0000000000000, 0, 0] ∧
    shr .w24 3 #v[1, 0, 0, 0] = #v[0, 0x2000000000000000, 0, 0] ∧
    shr .w24 11 #v[0x1234, 0, 0, 0] = #v[2, 0x4680000000000000, 0, 0] := by decide

/-- V-CHK1, V-CHK3, V-CHK4. -/
theorem test_chk :
    chk .w12 0x37 = 0x3 ∧ chk .w24 0x37 = 0x37 ∧ chk .w12 0x0F = 0x0 ∧ chk .w12 0xF0 = 0xF := by decide

/-- R133's example. -/
theorem test_load :
    (microStep (running .w12)).map (fun b => (b.phase, b.l))
      = some (.checksum, #v[0x0001020304050607, 0x08090A0B0C0D0E0F, 0, 0]) := by decide

/-- R136's example and the V-D5 trace. -/
theorem test_last12 :
    (microStep beforeLast12).map (fun b => (b.phase, b.j, b.idx[11], b.l))
      = some (.slice, 10, 251, #v[0x0000020406080A0C, 0x0E10121416181A1C, 0, 0]) := by decide

/-- R137's example and the V-D6 trace. -/
theorem test_last24 :
    (microStep beforeLast24).map (fun b => (b.phase, b.j, b.idx[23], b.l))
      = some (.slice, 22, 1891,
          #v[0x000020406080A0C0, 0xE10121416181A1C1, 0xE20222426282A2C2, 0xE30323436383A3C3]) := by decide

/-- R138's example. -/
theorem test_slice12 :
    (microStep beforeSlice12).map (fun b => (b.phase, b.j, b.idx[10], b.l))
      = some (.slice, 9, 540, #v[0x000000004080C101, 0x4181C2024282C303, 0, 0]) := by decide

/-- V-D6 trace, the first SLICE. -/
theorem test_slice24 :
    (microStep beforeSlice24).map (fun b => (b.phase, b.j, b.idx[22], b.l))
      = some (.slice, 21, 963,
          #v[0x00000004080C1014, 0x181C2024282C3034, 0x383C4044484C5054, 0x585C6064686C7074]) := by decide

/-- The last SLICE (J = 0) ends the loop (R138); COMPLETE's STATUS (R139). -/
theorem test_slice_end_and_complete :
    (microStep { beforeSlice12 with j := 0 }).map (fun b => (b.phase, b.j)) = some (.complete, 0) ∧
    (microStep (beforeComplete .w12)).map (fun b => (statusWord b, b.ent, b.c)) = some (0x00000C02, zeroEnt, 0) := by
  decide

/-- R147: no micro-step for a word count that names no mode. -/
theorem test_datapath_refuses :
    goesOn (runSeq (on { Block.reset with phase := .load, nwords := 16 })) = false := by decide

/-! ### Instructions -/

/-- V-C1 and V-C3. -/
theorem test_wrEnt :
    seen (exec (.wrEnt 0 0x00010203) (on Block.reset)) = some (0x00010000, some writeOkay) ∧
    seen (exec (.wrEnt 7 5) (on Block.reset)) = some (0x00800000, some writeOkay) := by decide

/-- V-C18 and V-C30: rejected writes. -/
theorem test_wrEnt_rejected :
    seen (exec (.wrEnt 0 0xFFFFFFFF) (on (running .w12))) = some (0x000F0C61, some writeOkay) ∧
    seen (exec (.wrEnt 0 1) (on locked)) = some (0x00000044, some writeOkay) := by decide

/-- V-C8 and R101's example; V-C10. -/
theorem test_wrCmd :
    seen (exec (.wrCmd 0x00000007) (on Block.reset)) = some (0x00000050, some writeOkay) ∧
    seen (exec (.wrCmd 0) (on { Block.reset with err := .badCommand })) = some (0x00000050, some writeOkay) := by decide

/-- V-C20. -/
theorem test_nop : seen (exec .nop (on (running .w12))) = some (0x000F0C01, some writeOkay) := by decide

/-- V-C21 and V-C31. -/
theorem test_clear :
    seen (exec .clear (on (running .w12))) = some (0x00000000, some writeOkay) ∧
    seen (exec .clear (on locked)) = some (0x00000004, some writeOkay) := by decide

/-- V-C23 and V-C17: the order of the checks. -/
theorem test_encode :
    seen (exec (.encode 16) (on (finished .w12))) = some (0x00000010, some writeOkay) ∧
    seen (exec (.encode 16) (on (running .w12))) = some (0x000F0C61, some writeOkay) := by decide

/-- R104's example and V-C13 (too many entropy registers). -/
theorem test_encode12 :
    seen (exec .encode12 (on (ready .w12))) = some (0x000F0C01, some writeOkay) ∧
    seen (exec .encode12 (on (ready .w24))) = some (0x00FF0020, some writeOkay) := by decide

/-- V-C15 and V-C14. -/
theorem test_encode24 :
    seen (exec .encode24 (on (ready .w24))) = some (0x00FF1801, some writeOkay) ∧
    seen (exec .encode24 (on (ready .w12))) = some (0x000F0020, some writeOkay) := by decide

/-- V-C22. -/
theorem test_entropyFail :
    seen (exec .entropyFail (on (running .w12))) = some (0x00000034, some writeOkay) := by decide

/-- V-B17. -/
theorem test_rdStatus :
    seen (exec .rdStatus (on (running .w12))) = some (0x000F0C01, some (readOkay 0x000F0C01)) := by decide

/-- V-B10 and V-B11. -/
theorem test_rdIdxLo :
    seen (exec (.rdIdxLo 11) (on (finished .w12))) = some (0x00000C02, some (readOkay 3)) ∧
    seen (exec (.rdIdxLo 12) (on (finished .w12))) = some (0x00000C02, some readBusErr) := by decide

/-- The form of V-B14, and a HI position in 12-word mode. -/
theorem test_rdIdxHi :
    seen (exec (.rdIdxHi 23) (on (finished .w24))) = some (0x00001802, some (readOkay 3)) ∧
    seen (exec (.rdIdxHi 16) (on (finished .w12))) = some (0x00000C02, some readBusErr) := by decide

/-- V-B12 and V-B13. -/
theorem test_rdWordLo :
    exec (.rdWordLo 11 3) (on (finished .w12)) =
      .next { on (finished .w12) with responses := [readOkay (window (Config.wordlist 3) 3)] } ∧
    exec (.rdWordLo 12 0) (on (finished .w12)) = .next { on (finished .w12) with responses := [readBusErr] } :=
  ⟨rfl, rfl⟩

/-- The form of V-B15. -/
theorem test_rdWordHi :
    exec (.rdWordHi 23 3) (on (finished .w24)) =
      .next { on (finished .w24) with responses := [readOkay (window (Config.wordlist 3) 3)] } := rfl

/-- The slot of V-W1. -/
def slotW1 : Slot := #v[0x61, 0x62, 0x61, 0x6E, 0x64, 0x6F, 0x6E, 0, 0, 0, 0, 0, 0, 0, 0, 0]

/-- V-W1. -/
theorem test_window :
    [0, 1, 2, 3].map (window slotW1) = [0x6162616E, 0x646F6E00, 0, 0] ∧
    slotWord slotW1 = [0x61, 0x62, 0x61, 0x6E, 0x64, 0x6F, 0x6E] := by decide

/-- R57: the bytes of ENT0, in order, and the length of each mode's entropy. -/
theorem test_entropy_bytes :
    entBytes .w12 inc16 = [0, 1, 2, 3, 4, 5, 6, 7, 8, 9, 10, 11, 12, 13, 14, 15] ∧ (entBytes .w24 inc32).length = 32 := by
  decide

/-! ### Witnesses: for every statement with hypotheses, a case that meets them, one for each clause -/

/-- At the ends of the operands' ranges. -/
theorem witness_DecodeOfEncodeIsIdentity :
    [Instr.encode 0, .encode 13, .encode 255, .wrEnt 7 0xFFFFFFFF, .wrCmd 0xFFFFFFFF, .rdIdxLo 0, .rdIdxLo 15,
      .rdIdxHi 16, .rdIdxHi 23, .rdWordLo 15 3, .rdWordHi 16 0, .rdWordHi 23 3].all Instr.wf = true := by decide

/-- A write, and a read whose data word is dropped. -/
theorem witness_DecodedTransactionIsItsEncoding :
    decode (.bus 0x101C 9) = .instr (.wrEnt 7 9) ∧ encode (.wrEnt 7 9) = .bus 0x101C 9 ∧
    decode (.bus 0x009C 9) = .instr (.rdIdxHi 23) ∧ busIsWrite 0x009C = false ∧
    encode (.rdIdxHi 23) = .bus 0x009C 0 := by decide

/-- Each command, and each way to be none. -/
theorem witness_CommandWordsAreExactlyTheListedOnes :
    [0, 1, 0x0000FF02, 3, 0x00010000, 0x00000010, 4, 0x00000101].map decodeCmd
      = [.nop, .clear, .encode 255, .entropyFail, .badCommand, .badCommand, .badCommand, .badCommand] := by decide

/-- Each register at the ends of its range in its direction, and a code of each other kind. -/
theorem witness_BusRowsCoverExactlyTheRegisterMap :
    [0x101C, 0x1020, 0x0024, 0x0040, 0x007C, 0x0080, 0x009C, 0x0100, 0x01FC, 0x0200, 0x027C, 0x0028, 0x0000,
      0x1024].map (fun t => (regAt (busAddr t), busIsWrite t))
      = [(some (.ent 7), true), (some .cmd, true), (some .status, false), (some (.idx 0), false),
         (some (.idx 15), false), (some (.idx 16), false), (some (.idx 23), false), (some (.word 0 0), false),
         (some (.word 15 3), false), (some (.word 16 0), false), (some (.word 23 3), false), (none, false),
         (some (.ent 0), false), (some .status, true)] := by decide

theorem witness_StepRunsTheDecodedInstruction :
    (pending (ready .w12) [.host (.cmd 0x00000C02), .seq]).events = .host (.cmd 0x00000C02) :: [.seq] ∧
    decode (.cmd 0x00000C02) = .instr .encode12 := by decide

/-- A CMD word, a BUS code alone, and one with its data word. -/
theorem witness_PlacedTableWordRunsNext :
    decodeTableWord 32 0x0000FF02 = some (.encode 255) ∧ decodeTableWord 16 0x027C = some (.rdWordHi 23 3) ∧
    decodeTableWord 48 0x00000009101C = some (.wrEnt 7 9) := by decide

/-- A misaligned code, a reserved one, a read of a write-only register and writes of read-only ones. -/
theorem witness_UnadmittedTransactionGetsBusErr :
    ∀ t ∈ [0x0026, 0x10A0, 0x0000, 0x0020, 0x1024, 0x1040, 0x127C],
      (pending Block.reset [.host (.bus t 5)]).events = .host (.bus t 5) :: [] ∧
      ∀ reg, regAt (busAddr t) = some reg →
        busIsWrite t = match reg with
          | .ent _ => false
          | .cmd => false
          | .status => true
          | .idx _ => true
          | .word _ _ => true := by
  intro t ht
  refine ⟨rfl, fun reg h => ?_⟩
  simp only [List.mem_cons, List.not_mem_nil, or_false] at ht
  rcases ht with rfl | rfl | rfl | rfl | rfl | rfl | rfl <;> cases reg <;>
    first | rfl | exact absurd h (by simp [regAt, busAddr])

theorem witness_CommandWriteRunsItsCommand : decode (.cmd 0x00000A02) = .instr (.encode 10) := by decide

/-- A reset that meets a locked block. -/
theorem witness_ResetEventRestoresEveryElement : (pending locked [.rst, .seq]).events = .rst :: [.seq] := rfl

theorem witness_IdleBlockKeepsItsState :
    (on (finished .w12)).events = [] ∧ (on (finished .w12)).block.phase = .idle := by decide

/-- Each branch of ENCODE. -/
theorem witness_EncodeChecksThenStarts :
    locked.fatal = true ∧ ((running .w12).fatal = false ∧ (running .w12).phase ≠ .idle) ∧
    ((finished .w12).fatal = false ∧ (finished .w12).phase = .idle ∧ (13 : BitVec 8) ≠ 12 ∧ (13 : BitVec 8) ≠ 24 ∧
      (finished .w12).entv ≠ 0x0F ∧ (finished .w12).entv ≠ 0xFF) ∧
    ((ready .w12).fatal = false ∧ (ready .w12).phase = .idle ∧ (ready .w12).entv = 0x0F) ∧
    ((ready .w24).fatal = false ∧ (ready .w24).phase = .idle ∧ (ready .w24).entv = 0xFF) := by decide

theorem witness_ExactEncodeRowsStartTheirMode :
    ((on (ready .w12)).block.fatal = false ∧ (on (ready .w12)).block.phase = .idle ∧ (on (ready .w12)).block.entv = 0x0F) ∧
    ((on (ready .w24)).block.fatal = false ∧ (on (ready .w24)).block.phase = .idle ∧
      (on (ready .w24)).block.entv = 0xFF) := by decide

theorem witness_IllegalCommandOnlySetsErr : decodeCmd 0x00000100 = .badCommand ∧ decodeCmd 0x0000000F = .badCommand := by
  decide

/-- Each branch of an entropy write. -/
theorem witness_EntropyWriteStoresOrRejects :
    (on locked).block.fatal = true ∧
    ((on (beforeComplete .w24)).block.fatal = false ∧ (on (beforeComplete .w24)).block.phase ≠ .idle) ∧
    ((on (finished .w24)).block.fatal = false ∧ (on (finished .w24)).block.phase = .idle) := by decide

theorem witness_EntropyWriteOrderDoesNotMatter : (0 : Fin 8) ≠ 7 := by decide

/-- The bytes `00 01 .. `, as many as asked. -/
def incBytes (k : Nat) : List Byte := (List.range k).map (BitVec.ofNat 8)

/-- Both modes. -/
theorem witness_LoadentDeliversTheEntropy :
    (∀ k ∈ [16, 32], (pending (finished .w12) (loadEnt (incBytes k))).block.fatal = false ∧
      (pending (finished .w12) (loadEnt (incBytes k))).block.phase = .idle ∧
      (pending (finished .w12) (loadEnt (incBytes k))).block.entv = 0 ∧
      (pending (finished .w12) (loadEnt (incBytes k))).events = loadEnt (incBytes k)) ∧
    (incBytes 16).length = Mode.w12.bytes ∧ (incBytes 32).length = Mode.w24.bytes := by decide

/-- The last readable and the first unreadable position of each mode, and no output. -/
theorem witness_IndexReadAnswersOnlyValidOutput :
    ((on (finished .w12)).block.done = true ∧ (11 : Fin 24).val < (on (finished .w12)).block.nwords.toNat ∧
      (on (finished .w12)).block.nwords.toNat ≤ (12 : Fin 24).val) ∧
    ((on (finished .w24)).block.done = true ∧ (23 : Fin 24).val < (on (finished .w24)).block.nwords.toNat) ∧
    (on (running .w24)).block.done = false := by decide

/-- Both rows. -/
theorem witness_WordReadAnswersTheSlotWindow :
    ((on (finished .w12)).block.done = true ∧ (0 : Fin 24).val < (on (finished .w12)).block.nwords.toNat ∧
      (on (finished .w12)).block.nwords.toNat ≤ (16 : Fin 24).val) ∧
    ((on (finished .w24)).block.done = true ∧ (16 : Fin 24).val < (on (finished .w24)).block.nwords.toNat) ∧
    (on Block.reset).block.done = false := by decide

/-- An admitted read and one that gets BUSERR. -/
theorem witness_ReadsHaveNoSideEffects : busIsWrite 0x0024 = false ∧ busIsWrite 0x0FFC = false := by decide

theorem witness_LoadStepFillsTheLimbs (m : Mode) :
    seqTurn (on (running m)) ∧ (on (running m)).block.phase = .load ∧ inMode (on (running m)).block m := by
  refine ⟨.inl rfl, ?_, ?_⟩ <;> cases m <;> rfl

theorem witness_ChecksumStepHashesExactlyTheEntropy (m : Mode) :
    seqTurn (pending { running m with phase := .checksum } [.seq]) ∧ inMode { running m with phase := .checksum } m := by
  refine ⟨.inr rfl, ?_⟩
  cases m <;> rfl

theorem witness_LastStepWritesTheLastIndex :
    (seqTurn (on beforeLast12) ∧ beforeLast12.phase = .last ∧ beforeLast12.nwords = 12) ∧
    (seqTurn (on beforeLast24) ∧ beforeLast24.phase = .last ∧ beforeLast24.nwords = 24) :=
  ⟨⟨.inl rfl, by decide⟩, .inl rfl, by decide⟩

/-- With J above 0 and at 0. -/
theorem witness_SliceStepCutsOneGroup :
    (seqTurn (on beforeSlice24) ∧ beforeSlice24.phase = .slice ∧ inMode beforeSlice24 .w24 ∧ beforeSlice24.j.val ≠ 0) ∧
    (seqTurn (on { beforeSlice12 with j := 0 }) ∧ inMode { beforeSlice12 with j := 0 } .w12 ∧
      { beforeSlice12 with j := 0 }.j.val = 0) :=
  ⟨⟨.inl rfl, rfl, rfl, by decide⟩, .inl rfl, rfl, rfl⟩

theorem witness_CompleteStepDeliversAndScrubs :
    seqTurn (on (beforeComplete .w12)) ∧ (on (beforeComplete .w12)).block.phase = .complete := ⟨.inl rfl, rfl⟩

/-- The shift counts the block uses and the ends of the range. -/
theorem witness_LimbShiftIsIntegerShift : ∀ k ∈ [1, 3, 7, 11, 63], 0 < k ∧ k < 64 := by decide

/-- A quiet run of an accepted encoding, in both modes: the premises of EncodeTakesExactlyNPlusThreeMicroSteps,
EncodingFollowsTheBitLayout, FirstAndLastIndexComposition and EntropyIsRecoveredFromIndices, and, with the two theorems
that follow, of ResultDependsOnEntropyAndModeOnly and FlippedEntropyBitChangesItsIndex. -/
theorem quiet_run (m : Mode) :
    (on (running m)).events = [] ∧ (on (running m)).block.phase = .load ∧ (on (running m)).block.j = 0 ∧
    inMode (on (running m)).block m ∧ ∃ t, Sys2Proof.core.run (m.n + 3) (on (running m)) = .next t := by
  refine ⟨rfl, ?_, ?_, ?_, exists_next ?_⟩ <;> cases m <;> rfl

/-- Entropy one bit away from inc16: bit 0 of byte 15. -/
def inc16Flipped : Vector Word 8 := inc16.set 3 0x0C0D0E0E

/-- The accepted encoding of it. -/
def runningFlipped : Block := { running .w12 with ent := inc16Flipped }

/-- The flipped bit 0 stands in the last index; both runs exist. -/
theorem witness_FlippedEntropyBitChangesItsIndex :
    0 < Mode.w12.ent ∧ entropyVal .w12 (running .w12).ent ^^^ entropyVal .w12 runningFlipped.ent = 2 ^ 0 ∧
    (11 : Fin 24).val = Mode.w12.n - 1 - (0 + Mode.w12.cs) / 11 ∧
    runningFlipped.phase = .load ∧ inMode runningFlipped .w12 ∧
    ∃ t, Sys2Proof.core.run (Mode.w12.n + 3) (on runningFlipped) = .next t :=
  ⟨by decide, by decide, by decide, rfl, rfl, exists_next (by decide)⟩

/-- Two accepted encodings of the same 16 bytes that differ in ENT4..ENT7 and in ERR. -/
theorem witness_ResultDependsOnEntropyAndModeOnly :
    entBytes .w12 (running .w12).ent = entBytes .w12 { running .w12 with ent := inc32, err := .busy }.ent ∧
    inMode { running .w12 with ent := inc32, err := .busy } .w12 ∧
    ∃ t, Sys2Proof.core.run (Mode.w12.n + 3) (on { running .w12 with ent := inc32, err := .busy }) = .next t :=
  ⟨by decide, rfl, exists_next (by decide)⟩

/-- The invariants hold in an accepted encoding. -/
theorem running_inv (m : Mode) : (running m).Inv := by
  cases m
  all_goals
    constructor
    all_goals first | decide | (intro _ m h; cases m <;> first | rfl | cases h)

/-- The invariants hold in the middle of an encoding. -/
theorem beforeSlice12_inv : beforeSlice12.Inv := by
  constructor
  all_goals first | decide | (intro _ m h; cases m <;> first | rfl | cases h)

/-- The invariants hold with an output, and in the locked block. -/
theorem finished_inv (m : Mode) : (finished m).Inv := by
  cases m
  all_goals
    constructor
    all_goals first | decide | (intro h; cases (h rfl))

theorem locked_inv : locked.Inv := by
  constructor
  all_goals first | decide | (intro h; cases (h rfl))

/-- An encoding just accepted tracks its layout; the host may meanwhile try to write. -/
theorem witness_EveryInterleavingKeepsTheBitLayout (m : Mode) :
    let s := pending (running m) [.host (.bus 0x1000 0xFFFFFFFF)]
    s.block.Inv ∧ s.block.phase ≠ .idle ∧ inMode s.block m ∧ s.block.Tracks m ∧
    (∀ e, s.events.head? = some e → ¬ aborts e) ∧ ∃ t, step s = .next t := by
  refine ⟨running_inv m, ?_, ?_, ⟨?_, ?_, ?_, ?_⟩, ?_, exists_next ?_⟩
  case refine_7 =>
    intro e he
    cases he
    simp [aborts, commandOf]
  all_goals cases m
  all_goals first | rfl | decide

theorem beforeComplete12_inv : (beforeComplete .w12).Inv := by
  constructor
  all_goals first | decide | (intro _ m h; cases m <;> first | rfl | cases h)

/-- In SLICE and before COMPLETE. -/
theorem witness_StepKeepsTheRemainingBitsLaw :
    (beforeSlice12.Inv ∧ beforeSlice12.Remaining ∧ ∃ t, step (on beforeSlice12) = .next t) ∧
    ((beforeComplete .w12).Inv ∧ (beforeComplete .w12).Remaining ∧ ∃ t, step (on (beforeComplete .w12)) = .next t) := by
  refine ⟨⟨beforeSlice12_inv, ?_, exists_next (by decide)⟩, beforeComplete12_inv, ?_, exists_next (by decide)⟩
  · intro m h
    cases m
    · exact ⟨fun _ => by decide, fun h => by cases h⟩
    · cases h
  · intro m h
    exact ⟨fun h => (by cases h), fun _ => rfl⟩

/-- Running, with an output, and locked, and a run from reset; also the premise of MachineIsNeverStuck. -/
theorem witness_StepKeepsTheInvariants (m : Mode) :
    (running m).Inv ∧ (finished m).Inv ∧ locked.Inv ∧ (∃ t, step (on (running m)) = .next t) ∧
    ∃ t, Sys2Proof.core.run 3 (pending State.reset.block [.host (.bus 0x1000 7), .rst, .host (.cmd 3)]) = .next t :=
  ⟨running_inv m, finished_inv m, locked_inv, exists_next (by cases m <;> decide), exists_next (by decide)⟩

/-- A block just reset, with its host about to read. -/
theorem witness_StateAfterReset : (pending State.reset.block [.host (.bus 0x0040 0)]).block = State.reset.block := rfl

/-- An encoding with an entropy write and a STATUS read in it is busy for seventeen steps and idle after the eighteenth:
three take the transactions and fifteen are micro-steps. -/
theorem witness_EveryUnabortedEncodingDeliversTheBitLayout :
    let s := pending (running .w12) [.host (.bus 0x1000 7), .seq, .host (.bus 0x0024 0), .host (.bus 0x0040 0)]
    s.block.Inv ∧ s.block.phase = .load ∧ inMode s.block .w12 ∧ (∀ e ∈ s.events, ¬ aborts e) ∧
    (∀ k' ≤ 17, ∃ u, Sys2Proof.core.run k' s = .next u ∧ u.block.phase ≠ .idle) ∧
    ∃ t, Sys2Proof.core.run 18 s = .next t ∧ t.block.phase = .idle := by
  refine ⟨running_inv .w12, rfl, rfl, ?_, ?_, _, rfl, rfl⟩
  · intro e he
    simp only [pending, List.mem_cons, List.not_mem_nil, or_false] at he
    rcases he with rfl | rfl | rfl | rfl <;> simp [aborts, commandOf]
  · intro k hk
    interval_cases k <;> exact ⟨_, rfl, by simp only [ne_eq]; exact Phase.noConfusion⟩

/-- An encoding during which the host reads STATUS and tries a second ENCODE. -/
theorem witness_AcceptedEncodingCompletes (m : Mode) :
    let s := pending (running m) [.host (.bus 0x0024 0), .seq, .host (.cmd 0x00001802)]
    s.block.Inv ∧ s.block.phase ≠ .idle ∧ inMode s.block m ∧ ∀ e ∈ s.events, ¬ aborts e := by
  refine ⟨running_inv m, ?_, ?_, ?_⟩
  · cases m <;> decide
  · cases m <;> rfl
  · have hcmd : decodeCmd 0x00001802 = .encode 24 := by decide
    intro e he
    simp only [pending, List.mem_cons, List.not_mem_nil, or_false] at he
    rcases he with rfl | rfl | rfl
    · simp [aborts, commandOf]
    · exact id
    · rw [show aborts (.host (.cmd 0x00001802)) = (some (decodeCmd 0x00001802) = some .clear ∨
        some (decodeCmd 0x00001802) = some .entropyFail) from rfl, hcmd]
      decide

/-- An entropy write during an encoding. -/
theorem witness_HostCannotDisturbARunningEncoding :
    (on (running .w12)).block.phase ≠ .idle ∧ ¬ aborts (.host (.bus 0x1000 7)) :=
  ⟨by decide, by simp [aborts, commandOf]⟩

/-- A reset of the locked block, and a failure report. -/
theorem witness_FatalIsSetByFailureAndClearedByResetOnly :
    (∃ t, step (pending locked [.rst]) = .next t ∧ locked.fatal ≠ t.block.fatal) ∧
    ∃ t, step (pending (running .w12) [.host (.cmd 3)]) = .next t ∧ (running .w12).fatal ≠ t.block.fatal :=
  ⟨⟨_, rfl, by decide⟩, _, rfl, by decide⟩

/-- CLEAR, an entropy write and an ENCODE after a failure. -/
theorem witness_NoOutputAfterEntropyFailureUntilReset :
    let s := pending locked [.host (.cmd 1), .host (.bus 0x1000 7), .host (.cmd 0x00000C02)]
    s.block.Inv ∧ s.block.fatal = true ∧ Event.rst ∉ s.events ∧ ∃ t, Sys2Proof.core.run 5 s = .next t :=
  ⟨locked_inv, rfl, by decide, exists_next (by decide)⟩

theorem witness_OnlyCompleteSetsDone :
    ∃ t, step (on (beforeComplete .w24)) = .next t ∧ (beforeComplete .w24).done = false ∧ t.block.done = true :=
  ⟨_, rfl, by decide, by decide⟩

/-- An entropy write while an output is held. -/
theorem witness_ValidOutputStaysUntilReplaced :
    let s := pending (finished .w12) [.host (.bus 0x1000 7)]
    s.block.done = true ∧ s.block.phase = .idle ∧ (∀ e, s.events.head? = some e → ¬ aborts e) ∧
    (∀ r n, s.events.head? = some (.host r) → commandOf r ≠ some (.encode n)) ∧ ∃ t, step s = .next t := by
  refine ⟨rfl, rfl, fun e he => ?_, fun r n hr => ?_, exists_next (by decide)⟩
  · cases he
    simp [aborts, commandOf]
  · cases hr
    simp [commandOf]

/-- The entropy of a completing encoding, entropy that a CLEAR takes, and an ENT register that a write changes. -/
theorem witness_EntropyIsConsumedOnlyByCompletionOrClearing :
    (∃ t, step (on (beforeComplete .w12)) = .next t ∧ (beforeComplete .w12).entv.getLsbD (3 : Fin 8).val = true ∧
      t.block.entv.getLsbD (3 : Fin 8).val = false ∧ t.block.ent[(3 : Fin 8)] ≠ (beforeComplete .w12).ent[(3 : Fin 8)]) ∧
    (∃ t, step (pending (ready .w24) [.host (.cmd 1)]) = .next t ∧ (ready .w24).entv.getLsbD (7 : Fin 8).val = true ∧
      t.block.entv.getLsbD (7 : Fin 8).val = false) ∧
    ∃ t, step (pending (ready .w24) [.host (.bus 0x1000 7)]) = .next t ∧
      t.block.ent[(0 : Fin 8)] ≠ (ready .w24).ent[(0 : Fin 8)] :=
  ⟨⟨_, rfl, by decide, by decide, by decide⟩, ⟨_, rfl, by decide, by decide⟩, _, rfl, by decide⟩

/-- Two encodings of different entropy. -/
theorem witness_SecretsDoNotReachTheHostBeforeCompletion :
    (on (running .w12)).block.Inv ∧ SameView (on (running .w12)) (on runningFlipped) ∧
    (on (running .w12)).block.ent ≠ (on runningFlipped).block.ent ∧ (on (running .w12)).block.phase ≠ .complete ∧
    ∃ t, step (on (running .w12)) = .next t := by
  refine ⟨running_inv .w12, ⟨⟨?_, ?_, ?_, ?_, ?_, ?_, ?_, ?_, ?_⟩, ?_⟩, ?_, ?_, exists_next ?_⟩
  all_goals first | rfl | decide

theorem witness_OutputIsNWordsOfTheWordList (m : Mode) : inMode (finished m) m := by cases m <;> rfl

/-- A word list whose words are two characters long, the index in base 64. -/
def twoLetters (i : Fin 2048) : Slot :=
  #v[BitVec.ofNat 8 (0x21 + i.val / 64), BitVec.ofNat 8 (0x21 + i.val % 64), 0, 0, 0, 0, 0, 0, 0, 0, 0, 0, 0, 0, 0, 0]

theorem twoLetters_wf : wordlistWf twoLetters := by
  refine ⟨fun i => ⟨2, by omega, by omega, fun k => ?_⟩, fun i j h => ?_⟩
  · have hi := i.isLt
    rcases Nat.lt_or_ge k.val 2 with hk | hk
    · rw [if_pos hk]
      obtain hk | hk : k = 0 ∨ k = 1 := by omega
      all_goals
        subst hk
        simp [twoLetters, BitVec.le_def]
        omega
    · rw [if_neg (by omega)]
      have hz : ∀ k : Fin 14, (twoLetters i)[k.val + 2] = 0#8 := by
        intro k
        fin_cases k <;> rfl
      have := hz ⟨k.val - 2, by omega⟩
      simp only [Nat.sub_add_cancel hk] at this
      exact this
  · have h0 := congrArg (fun s : Slot => s[0].toNat) h
    have h1 := congrArg (fun s : Slot => s[1].toNat) h
    have hi := i.isLt
    have hj := j.isLt
    simp [twoLetters] at h0 h1
    omega

/-- One index. -/
theorem witness_TextLengthLaw : ([3] : List Index) ≠ [] := by decide

theorem witness_TextDeterminesTheIndices :
    wordlistWf twoLetters ∧ textOf twoLetters [2047, 0, 3] = textOf twoLetters [2047, 0, 3] := ⟨twoLetters_wf, rfl⟩

/-- Two blocks, each with a step. -/
theorem witness_InstancesAreIndependent :
    let sys := [on (running .w12), on (running .w24)]
    (∃ a, stepInstance 0 sys = .next a) ∧
    ∃ sys', stepInstance 1 sys = .next sys' ∧ ∃ b, stepInstance 0 sys' = .next b := ⟨⟨_, rfl⟩, _, rfl, _, rfl⟩

end Sys2Proof.Tests
end

/-! ## The state's invariants and safety rules (10_state.md) -/

namespace Sys2Proof.Machine

/-! ### What the operations make of single elements -/

section Elements

variable (b : Block) (m : Mode)

@[simp] theorem zeroIdx_getElem (i : Fin 24) : zeroIdx[i] = 0 := by simp [zeroIdx]

@[simp] theorem zeroEnt_getElem (j : Fin 8) : zeroEnt[j] = 0 := by simp [zeroEnt]

@[simp] theorem lastStep_ent : (lastStep m b).ent = b.ent := by cases m <;> rfl
@[simp] theorem lastStep_entv : (lastStep m b).entv = b.entv := by cases m <;> rfl
@[simp] theorem lastStep_nwords : (lastStep m b).nwords = b.nwords := by cases m <;> rfl
@[simp] theorem lastStep_phase : (lastStep m b).phase = .slice := by cases m <;> rfl
@[simp] theorem lastStep_c : (lastStep m b).c = b.c := by cases m <;> rfl
@[simp] theorem lastStep_done : (lastStep m b).done = b.done := by cases m <;> rfl
@[simp] theorem lastStep_fatal : (lastStep m b).fatal = b.fatal := by cases m <;> rfl

/-- LAST starts J at the second to last position (R136, R137). -/
theorem lastStep_j : (lastStep m b).j.val + 2 = m.n := by cases m <;> rfl

/-- LAST writes no position beyond the last (R136, R137). -/
theorem lastStep_idx_of_le {i : Fin 24} (hi : m.n ≤ i.val) : (lastStep m b).idx[i] = b.idx[i] := by
  cases m
  · have hne : 11 ≠ i.val := by simp only [Mode.n] at hi; omega
    simp [lastStep, hne]
  · simp only [Mode.n] at hi
    omega

/-- LAST shifts the limbs (R136, R137). -/
theorem lastStep_l : ∃ k, (lastStep m b).l = shr m k b.l := by cases m <;> exact ⟨_, rfl⟩

/-- The limbs of no use in 12-word mode stay as they are in a shift (R131). -/
theorem shr_w12_unused (k : Nat) (l : Vector Limb 4) :
    (shr .w12 k l)[2] = l[2] ∧ (shr .w12 k l)[3] = l[3] := ⟨rfl, rfl⟩

/-- LOAD leaves the limbs of no use in 12-word mode zero (R133). -/
theorem loadLimbs_w12_unused (ent : Vector Word 8) :
    (loadLimbs .w12 ent)[2] = 0 ∧ (loadLimbs .w12 ent)[3] = 0 := ⟨rfl, rfl⟩

/-- The 12-word checksum has no high nibble (R135). -/
theorem chk_w12_high (h : Byte) : (chk .w12 h).extractLsb' 4 4 = 0 := by
  refine BitVec.eq_of_getLsbD_eq fun i hi => ?_
  simp [chk, hi]

variable (j k : Fin 8) (w : Word)

theorem setEntropy_ent_getElem : (setEntropy j w b).ent[k] = if k = j then w else b.ent[k] := by
  simp [Vector.getElem_set, Fin.ext_iff, eq_comm]

theorem setEntropy_entv_getLsbD :
    (setEntropy j w b).entv.getLsbD k.val = (b.entv.getLsbD k.val || decide (k = j)) := by
  have hbit : ∀ j k : Fin 8, (1#8 <<< j.val).getLsbD k.val = decide (k = j) := by decide
  rw [setEntropy_entv, BitVec.getLsbD_or, hbit]

end Elements

/-! ### A run keeps what every step keeps -/

/-- The induction over runs, once. -/
theorem run_keeps {P : State → Prop} (hstep : ∀ s t, P s → step s = .next t → P t) :
    ∀ (k : Nat) (s t : State), P s → Sys2Proof.core.run k s = .next t → P t := by
  intro k
  induction k with
  | zero => intro s t hs h; cases h; exact hs
  | succ k ih =>
    intro s t hs h
    obtain ⟨u, hu, hrun⟩ := run_succ h
    exact ih u t (hstep s u hs hu) hrun

/-! ### FATAL -/

section Fatal

variable (b : Block)

@[simp] theorem encodeBlock_fatal (n : BitVec 8) : (encodeBlock n b).fatal = b.fatal := by
  rcases encodeBlock_cases n b with ⟨-, h⟩ | ⟨-, -, h⟩ | ⟨-, -, -, h⟩ | ⟨m, -, -, -, -, h⟩ | ⟨m, -, -, h⟩ <;>
    simp [h]

@[simp] theorem entropyBlock_fatal (j : Fin 8) (w : Word) : (entropyBlock j w b).fatal = b.fatal := by
  rcases entropyBlock_cases j w b with ⟨-, h⟩ | ⟨-, -, h⟩ | ⟨-, -, h⟩ <;> simp [h]

/-- Only ENTROPY_FAIL touches FATAL, and it sets it (R107). -/
theorem runCommand_fatal (c : Command) :
    (runCommand c b).fatal = b.fatal ∨ (c = .entropyFail ∧ (runCommand c b).fatal = true) := by
  cases c with
  | nop => exact .inl rfl
  | clear => exact .inl rfl
  | encode n => exact .inl (encodeBlock_fatal b n)
  | entropyFail => exact .inr ⟨rfl, rfl⟩
  | badCommand => exact .inl rfl

variable {b}

theorem microStep_fatal {b' : Block} (h : microStep b = some b') : b'.fatal = b.fatal := by
  rcases microStep_cases h with
    ⟨-, rfl⟩ | ⟨m, -, -, rfl⟩ | ⟨m, -, -, rfl⟩ | ⟨m, -, -, rfl⟩ | ⟨m, -, -, rfl⟩ | ⟨-, rfl⟩ <;> simp

end Fatal

/-! ### DONE -/

section Done

variable {b : Block}

/-- No ENCODE makes an output valid (R104). -/
theorem encodeBlock_done {n : BitVec 8} (hd : b.done = false) : (encodeBlock n b).done = false := by
  rcases encodeBlock_cases n b with ⟨-, h⟩ | ⟨-, -, h⟩ | ⟨-, -, -, h⟩ | ⟨m, -, -, -, -, h⟩ | ⟨m, -, -, h⟩ <;>
    simp [h, hd]

@[simp] theorem entropyBlock_done (j : Fin 8) (w : Word) : (entropyBlock j w b).done = b.done := by
  rcases entropyBlock_cases j w b with ⟨-, h⟩ | ⟨-, -, h⟩ | ⟨-, -, h⟩ <;> simp [h]

/-- No command makes an output valid. -/
theorem runCommand_done (c : Command) (hd : b.done = false) : (runCommand c b).done = false := by
  cases c with
  | nop => exact hd
  | clear => rfl
  | encode n => exact encodeBlock_done hd
  | entropyFail => rfl
  | badCommand => exact hd

/-- Of the micro-steps only COMPLETE touches DONE (R139). -/
theorem microStep_done {b' : Block} (h : microStep b = some b') : b'.done = b.done ∨ b.phase = .complete := by
  rcases microStep_cases h with
    ⟨-, rfl⟩ | ⟨m, -, -, rfl⟩ | ⟨m, -, -, rfl⟩ | ⟨m, -, -, rfl⟩ | ⟨m, -, -, rfl⟩ | ⟨hp, rfl⟩
  case inr.inr.inr.inr.inr => exact .inr hp
  all_goals exact .inl (by simp)

end Done

/-! ### The entropy registers and their mask -/

section Entropy

/-- No entropy is held: ENTV and every ENT register are 0. -/
def Block.noEntropy (b : Block) : Prop := b.entv = 0 ∧ ∀ k : Fin 8, b.ent[k] = 0

/-- The next step from `s` is one that consumes the entropy: a turn of the sequencer at COMPLETE, a CLEAR, an ENTROPY_FAIL
or a reset. -/
def consumesEntropy (s : State) : Prop :=
  (seqTurn s ∧ s.block.phase = .complete) ∨ ∃ e, s.events.head? = some e ∧ aborts e

theorem Block.noEntropy_of_zero {b : Block} (hv : b.entv = 0) (he : b.ent = zeroEnt) : b.noEntropy :=
  ⟨hv, fun k => by rw [he, zeroEnt_getElem]⟩

variable {b : Block}

/-- An ENCODE, accepted or rejected, leaves the entropy (R104). -/
theorem encodeBlock_keeps_entropy (n : BitVec 8) :
    (encodeBlock n b).ent = b.ent ∧ (encodeBlock n b).entv = b.entv := by
  rcases encodeBlock_cases n b with ⟨-, h⟩ | ⟨-, -, h⟩ | ⟨-, -, -, h⟩ | ⟨m, -, -, -, -, h⟩ | ⟨m, -, -, h⟩ <;>
    simp [h]

/-- A command leaves the entropy, but CLEAR and ENTROPY_FAIL leave none of it (R103, R107). -/
theorem runCommand_entropy (c : Command) :
    ((runCommand c b).ent = b.ent ∧ (runCommand c b).entv = b.entv) ∨
    ((c = .clear ∨ c = .entropyFail) ∧ (runCommand c b).noEntropy) := by
  cases c with
  | nop => exact .inl ⟨rfl, rfl⟩
  | clear => exact .inr ⟨.inl rfl, Block.noEntropy_of_zero rfl rfl⟩
  | encode n => exact .inl (encodeBlock_keeps_entropy n)
  | entropyFail => exact .inr ⟨.inr rfl, Block.noEntropy_of_zero rfl rfl⟩
  | badCommand => exact .inl ⟨rfl, rfl⟩

/-- A micro-step leaves the entropy, but COMPLETE leaves none of it (R139). -/
theorem microStep_entropy {b' : Block} (h : microStep b = some b') :
    (b'.ent = b.ent ∧ b'.entv = b.entv) ∨ (b.phase = .complete ∧ b'.noEntropy) := by
  rcases microStep_cases h with
    ⟨-, rfl⟩ | ⟨m, -, -, rfl⟩ | ⟨m, -, -, rfl⟩ | ⟨m, -, -, rfl⟩ | ⟨m, -, -, rfl⟩ | ⟨hp, rfl⟩
  case inr.inr.inr.inr.inr => exact .inr ⟨hp, Block.noEntropy_of_zero rfl rfl⟩
  all_goals exact .inl (by simp)

/-- All a step can do to the entropy: keep it, consume all of it, or store one word in one register. -/
theorem step_entropy_cases {s t : State} (h : step s = .next t) :
    (t.block.ent = s.block.ent ∧ t.block.entv = s.block.entv) ∨
    (consumesEntropy s ∧ t.block.noEntropy) ∨
    (∃ r j w, s.events.head? = some (.host r) ∧ decode r = .instr (.wrEnt j w) ∧
      t.block = setEntropy j w s.block) := by
  rcases step_block_cases h with ⟨hseq, hm⟩ | ⟨r, c, hr, hc, hb⟩ | ⟨r, j, w, hr, -, hd, hb⟩ | ⟨r, -, -, hb⟩ | ⟨hr, hb⟩
  · rcases microStep_entropy hm with hkeep | ⟨hp, hno⟩
    · exact .inl hkeep
    · exact .inr (.inl ⟨.inl ⟨hseq, hp⟩, hno⟩)
  · rw [hb]
    rcases runCommand_entropy (b := s.block) c with hkeep | ⟨rfl | rfl, hno⟩
    · exact .inl hkeep
    · exact .inr (.inl ⟨.inr ⟨_, hr, .inl hc⟩, hno⟩)
    · exact .inr (.inl ⟨.inr ⟨_, hr, .inr hc⟩, hno⟩)
  · rcases entropyBlock_cases j w s.block with ⟨-, he⟩ | ⟨-, -, he⟩ | ⟨-, -, he⟩
    · exact .inl (by simp [hb, he])
    · exact .inl (by simp [hb, he])
    · exact .inr (.inr ⟨r, j, w, hr, hd, hb.trans he⟩)
  · exact .inl (by simp [hb])
  · rw [hb]
    exact .inr (.inl ⟨.inr ⟨_, hr, trivial⟩, Block.noEntropy_of_zero rfl rfl⟩)

end Entropy

/-! ### The invariants, operation by operation -/

section Invariants

variable {b : Block}

/-- The mode whose word count is 12. -/
theorem eq_w12_of_inMode {m : Mode} (hm : inMode b m) (h : b.nwords = 12) : m = .w12 := by
  have hw := h.symm.trans (inMode_iff.mp hm)
  cases m
  · rfl
  · exact absurd hw (by decide)

theorem nwords_toNat_of_inMode {m : Mode} (hm : inMode b m) : b.nwords.toNat = m.n := by
  rw [inMode_iff.mp hm, words_toNat]

/-- What CLEAR, ENTROPY_FAIL and reset leave has the invariants, whatever the block was. -/
theorem scrub_inv (b : Block) : (scrub b).Inv where
  idleClean _ := ⟨rfl, rfl, rfl⟩
  busyMode h := absurd rfl h
  doneMode h := absurd h (by simp)
  fatalClean _ := ⟨rfl, rfl, rfl, rfl, rfl⟩
  idxBeyond i _ := zeroIdx_getElem i
  idleEmpty _ _ := ⟨rfl, rfl⟩
  entClear j _ := zeroEnt_getElem j
  mode12 h := absurd h (by simp)
  errCode := errBits_le _
  jOutsideSlice _ := rfl
  jInSlice h := absurd h (by simp)
  busyMask h := absurd rfl h
  latchEmpty _ := rfl

/-- No invariant but the range of the codes is about ERR. -/
theorem Block.Inv.reject (hi : b.Inv) (e : ErrCode) : (reject e b).Inv :=
  { hi with errCode := errBits_le e }

theorem clearBlock_inv (b : Block) : (clearBlock b).Inv := (scrub_inv b).reject .none

theorem failBlock_inv (b : Block) : (failBlock b).Inv :=
  (scrub_inv { b with fatal := true }).reject .entropyUnavailable

theorem reset_inv : Block.reset.Inv := scrub_inv Block.reset

/-- ClearOutput on an idle block (R113). -/
theorem Block.Inv.clearOutput (hi : b.Inv) (hp : b.phase = .idle) : (clearOutput b).Inv where
  idleClean := hi.idleClean
  busyMode h := absurd hp h
  doneMode h := absurd h (by simp)
  fatalClean h :=
    have ⟨_, _, hv, he, _⟩ := hi.fatalClean h
    ⟨rfl, rfl, hv, he, hp⟩
  idxBeyond i _ := zeroIdx_getElem i
  idleEmpty _ _ := ⟨rfl, rfl⟩
  entClear := hi.entClear
  mode12 h := absurd h (by simp)
  errCode := errBits_le _
  jOutsideSlice := hi.jOutsideSlice
  jInSlice h := absurd (hp.symm.trans h) (by simp)
  busyMask h := absurd hp h
  latchEmpty := hi.latchEmpty

/-- An accepted ENCODE starts on the clean datapath of an idle block, with the mode's mask checked (R104). -/
theorem Block.Inv.accept (hi : b.Inv) {m : Mode} (hready : readyFor b m) : (accept m b).Inv := by
  obtain ⟨hf, hp, hmask⟩ := hready
  obtain ⟨hl, hc, hj⟩ := hi.idleClean hp
  exact
    { idleClean := fun h => absurd h (by simp)
      busyMode := fun _ => ⟨words_eq_12_or_24 m, rfl, hf⟩
      doneMode := fun h => absurd h (by simp)
      fatalClean := fun h => absurd (hf.symm.trans h) (by simp)
      idxBeyond := fun i _ => zeroIdx_getElem i
      idleEmpty := fun _ h => absurd h (by simp)
      entClear := hi.entClear
      mode12 := fun _ => by simp [hl, hc, zeroLimbs]
      errCode := errBits_le _
      jOutsideSlice := fun _ => hj
      jInSlice := fun h => absurd h (by simp)
      busyMask := fun _ m' hm' => by
        obtain rfl : m = m' := by simpa [inMode] using hm'
        exact hmask
      latchEmpty := fun _ => hc }

/-- A stored entropy word sets its own mask bit and no other (R100). -/
theorem Block.Inv.setEntropy (hi : b.Inv) (hf : b.fatal = false) (hp : b.phase = .idle) (j : Fin 8) (w : Word) :
    (setEntropy j w b).Inv :=
  { hi with
    fatalClean := fun h => absurd (hf.symm.trans h) (by simp)
    entClear := fun k hk => by
      rw [setEntropy_entv_getLsbD, Bool.or_eq_false_iff, decide_eq_false_iff_not] at hk
      rw [setEntropy_ent_getElem, if_neg hk.2, hi.entClear k hk.1]
    busyMask := fun h => absurd hp h }

theorem Block.Inv.encodeBlock (hi : b.Inv) (n : BitVec 8) : (encodeBlock n b).Inv := by
  rcases encodeBlock_cases n b with
    ⟨-, h⟩ | ⟨-, -, h⟩ | ⟨-, hp, -, h⟩ | ⟨m, -, hp, -, -, h⟩ | ⟨m, hready, -, h⟩ <;> rw [h]
  · exact hi.reject _
  · exact hi.reject _
  · exact (hi.reject _).clearOutput hp
  · exact (hi.reject _).clearOutput hp
  · exact hi.accept hready

theorem Block.Inv.entropyBlock (hi : b.Inv) (j : Fin 8) (w : Word) : (entropyBlock j w b).Inv := by
  rcases entropyBlock_cases j w b with ⟨-, h⟩ | ⟨-, -, h⟩ | ⟨hf, hp, h⟩ <;> rw [h]
  · exact hi.reject _
  · exact hi.reject _
  · exact hi.setEntropy hf hp j w

theorem Block.Inv.runCommand (hi : b.Inv) (c : Command) : (runCommand c b).Inv := by
  cases c with
  | nop => exact hi
  | clear => exact clearBlock_inv b
  | encode n => exact hi.encodeBlock n
  | entropyFail => exact failBlock_inv b
  | badCommand => exact hi.reject _

/-! ### The invariants, micro-step by micro-step -/

/-- What the micro-steps before COMPLETE leave of a running encoding: it runs on, in its mode, with its entropy, and the
flags stay. -/
structure Block.RunsOn (b b' : Block) : Prop where
  phase : b.phase ≠ .idle
  phase' : b'.phase ≠ .idle
  nwords : b'.nwords = b.nwords
  ent : b'.ent = b.ent
  entv : b'.entv = b.entv
  done : b'.done = b.done
  fatal : b'.fatal = b.fatal

/-- Where an encoding runs on, what is left to see is the datapath: the indices, the limbs and latch, and J. -/
theorem Block.Inv.of_runsOn {b' : Block} (hi : b.Inv) (hrun : b.RunsOn b')
    (idxBeyond : ∀ i : Fin 24, b.nwords.toNat ≤ i.val → b'.idx[i] = b.idx[i])
    (mode12 : b.nwords = 12 → b'.l[2] = 0 ∧ b'.l[3] = 0 ∧ b'.c.extractLsb' 4 4 = 0)
    (jOutsideSlice : b'.phase ≠ .slice → b'.j = 0)
    (jInSlice : b'.phase = .slice → b'.j.val + 2 ≤ b.nwords.toNat)
    (latchEmpty : b'.phase = .load ∨ b'.phase = .checksum → b'.c = 0) : b'.Inv := by
  obtain ⟨hp, hp', hn, he, hv, hd, hf⟩ := hrun
  obtain ⟨hmode, hdone, hfatal⟩ := hi.busyMode hp
  exact
    { idleClean := fun h => absurd h hp'
      busyMode := fun _ => ⟨hn ▸ hmode, hd.trans hdone, hf.trans hfatal⟩
      doneMode := fun h => absurd ((hd.trans hdone).symm.trans h) (by simp)
      fatalClean := fun h => absurd ((hf.trans hfatal).symm.trans h) (by simp)
      idxBeyond := fun i h => (idxBeyond i (hn ▸ h)).trans (hi.idxBeyond i (hn ▸ h))
      idleEmpty := fun _ h => absurd h hp'
      entClear := fun j h => by simpa only [he] using hi.entClear j (hv ▸ h)
      mode12 := fun h => mode12 (hn ▸ h)
      errCode := errBits_le _
      jOutsideSlice := jOutsideSlice
      jInSlice := fun h => hn ▸ jInSlice h
      busyMask := fun _ m hm => hv.trans (hi.busyMask hp m (by simpa only [inMode, hn] using hm))
      latchEmpty := latchEmpty }

variable {m : Mode}

theorem Block.Inv.loadStep (hi : b.Inv) (hm : inMode b m) (hp : b.phase = .load) : (loadStep m b).Inv := by
  have hc : b.c = 0 := hi.latchEmpty (.inl hp)
  refine hi.of_runsOn ⟨by simp [hp], by simp, rfl, rfl, rfl, rfl, rfl⟩ (fun _ _ => rfl) (fun h => ?_)
    (fun _ => hi.jOutsideSlice (by simp [hp])) (fun h => absurd h (by simp)) (fun _ => hc)
  obtain rfl := eq_w12_of_inMode hm h
  obtain ⟨h2, h3⟩ := loadLimbs_w12_unused b.ent
  exact ⟨h2, h3, by simp [hc]⟩

theorem Block.Inv.checksumStep (hi : b.Inv) (hm : inMode b m) (hp : b.phase = .checksum) :
    (checksumStep m b).Inv := by
  refine hi.of_runsOn ⟨by simp [hp], by simp, rfl, rfl, rfl, rfl, rfl⟩ (fun _ _ => rfl) (fun h => ?_)
    (fun _ => hi.jOutsideSlice (by simp [hp])) (fun h => absurd h (by simp)) (fun h => absurd h (by simp))
  obtain rfl := eq_w12_of_inMode hm h
  obtain ⟨h2, h3, -⟩ := hi.mode12 h
  exact ⟨h2, h3, chk_w12_high _⟩

/-- A shift keeps item 7 of R38. -/
theorem Block.Inv.mode12_shr (hi : b.Inv) (hm : inMode b m) (k : Nat) (h : b.nwords = 12) :
    (shr m k b.l)[2] = 0 ∧ (shr m k b.l)[3] = 0 ∧ b.c.extractLsb' 4 4 = 0 := by
  obtain rfl := eq_w12_of_inMode hm h
  obtain ⟨h2, h3, hc⟩ := hi.mode12 h
  obtain ⟨e2, e3⟩ := shr_w12_unused k b.l
  exact ⟨e2.trans h2, e3.trans h3, hc⟩

theorem Block.Inv.lastStep (hi : b.Inv) (hm : inMode b m) (hp : b.phase = .last) : (lastStep m b).Inv := by
  have hn := nwords_toNat_of_inMode hm
  obtain ⟨k, hl⟩ := lastStep_l b m
  refine hi.of_runsOn ⟨by simp [hp], by simp, by simp, by simp, by simp, by simp, by simp⟩
    (fun i h => lastStep_idx_of_le b m (hn ▸ h)) (fun h => ?_) (fun h => absurd (lastStep_phase b m) h)
    (fun _ => (lastStep_j b m).trans hn.symm |>.le) (fun h => absurd h (by simp))
  rw [hl, lastStep_c]
  exact hi.mode12_shr hm k h

theorem Block.Inv.sliceStep (hi : b.Inv) (hm : inMode b m) (hp : b.phase = .slice) : (sliceStep m b).Inv := by
  have hj := hi.jInSlice hp
  refine hi.of_runsOn ⟨by simp [hp], ?_, by simp, by simp, by simp, by simp, by simp⟩ (fun i h => ?_) (fun h => ?_)
    (fun h => ?_) (fun h => ?_) (fun h => ?_)
  · rw [sliceStep_phase]
    split <;> simp [hp]
  · have hne : b.j.val ≠ i.val := by omega
    simp [hne]
  · rw [sliceStep_l, sliceStep_c]
    exact hi.mode12_shr hm 11 h
  · by_cases h0 : b.j = 0
    · simp [h0]
    · simp [h0, hp] at h
  · by_cases h0 : b.j = 0
    · simp [h0] at h
    · rw [sliceStep_j, if_neg h0]
      simp only [predJ]
      omega
  · by_cases h0 : b.j = 0 <;> simp [h0, hp] at h

theorem Block.Inv.completeStep (hi : b.Inv) (hp : b.phase = .complete) : (completeStep b).Inv := by
  obtain ⟨hmode, -, hf⟩ := hi.busyMode (by simp [hp])
  exact
    { idleClean := fun _ => ⟨rfl, rfl, rfl⟩
      busyMode := fun h => absurd rfl h
      doneMode := fun _ => ⟨rfl, hmode⟩
      fatalClean := fun h => absurd (hf.symm.trans h) (by simp)
      idxBeyond := hi.idxBeyond
      idleEmpty := fun h => absurd h (by simp)
      entClear := fun j _ => zeroEnt_getElem j
      mode12 := fun _ => by simp [zeroLimbs]
      errCode := errBits_le _
      jOutsideSlice := fun _ => rfl
      jInSlice := fun h => absurd h (by simp)
      busyMask := fun h => absurd rfl h
      latchEmpty := fun _ => rfl }

theorem Block.Inv.microStep (hi : b.Inv) {b' : Block} (h : microStep b = some b') : b'.Inv := by
  rcases microStep_cases h with
    ⟨-, rfl⟩ | ⟨m, hm, hp, rfl⟩ | ⟨m, hm, hp, rfl⟩ | ⟨m, hm, hp, rfl⟩ | ⟨m, hm, hp, rfl⟩ | ⟨hp, rfl⟩
  · exact hi
  · exact hi.loadStep hm hp
  · exact hi.checksumStep hm hp
  · exact hi.lastStep hm hp
  · exact hi.sliceStep hm hp
  · exact hi.completeStep hp

/-- Every step keeps the invariants (R38). -/
theorem Block.Inv.step {s t : State} (hi : s.block.Inv) (h : step s = .next t) : t.block.Inv := by
  rcases step_block_cases h with ⟨-, hm⟩ | ⟨r, c, -, -, hb⟩ | ⟨r, j, w, -, -, -, hb⟩ | ⟨r, -, -, hb⟩ | ⟨-, hb⟩
  · exact hi.microStep hm
  · exact hb ▸ hi.runCommand c
  · exact hb ▸ hi.entropyBlock j w
  · exact hb ▸ hi
  · exact hb ▸ reset_inv

end Invariants

/-! ### The obligations -/

/-- Settles O43: every kind of step keeps the invariants, and a run by induction from the block of reset. -/
theorem stepKeepsTheInvariants : Obligations.StepKeepsTheInvariants :=
  ⟨fun _ _ hi h => hi.step h,
   fun s t k hs => run_keeps (P := fun s => s.block.Inv) (fun _ _ hi h => hi.step h) k s t (hs ▸ reset_inv)⟩

/-- Settles O47, by the kinds of step: only a command and a reset reach FATAL. -/
theorem fatalIsSetByFailureAndClearedByResetOnly : Obligations.FatalIsSetByFailureAndClearedByResetOnly := by
  intro s t h hne
  rcases step_block_cases h with ⟨-, hm⟩ | ⟨r, c, hr, hc, hb⟩ | ⟨r, j, w, -, -, -, hb⟩ | ⟨r, -, -, hb⟩ | ⟨hr, hb⟩
  · exact absurd (microStep_fatal hm).symm hne
  · rw [hb] at hne ⊢
    rcases runCommand_fatal s.block c with hsame | ⟨rfl, hset⟩
    · exact absurd hsame.symm hne
    · exact .inr ⟨hset, r, hr, hc⟩
  · exact absurd (by simp [hb]) hne
  · exact absurd (by rw [hb]) hne
  · exact .inl ⟨by rw [hb]; rfl, hr⟩

/-- Settles O49, by the kinds of step: none but the micro-step of COMPLETE takes DONE from 0 to 1. -/
theorem onlyCompleteSetsDone : Obligations.OnlyCompleteSetsDone := by
  intro s t h hs ht
  rcases step_block_cases h with ⟨hseq, hm⟩ | ⟨r, c, -, -, hb⟩ | ⟨r, j, w, -, -, -, hb⟩ | ⟨r, -, -, hb⟩ | ⟨-, hb⟩
  · rcases microStep_done hm with hsame | hp
    · exact absurd (hsame.symm.trans ht) (by simp [hs])
    · exact ⟨hseq, hp⟩
  · exact absurd (runCommand_done c hs) (by simp [← hb, ht])
  · rw [hb, entropyBlock_done, hs] at ht
    exact absurd ht (by simp)
  · exact absurd ht (by simp [hb, hs])
  · exact absurd ht (by simp [hb, Block.reset])

/-- Settles O51, by what a step can do to the entropy: keep it, consume all of it, or store one word. -/
theorem entropyIsConsumedOnlyByCompletionOrClearing :
    Obligations.EntropyIsConsumedOnlyByCompletionOrClearing := by
  intro s t j h consumes
  rcases step_entropy_cases h with ⟨he, hv⟩ | hcons | ⟨r, j', w, hr, hd, hb⟩
  · exact ⟨fun h1 h0 => absurd (h1.symm.trans (hv ▸ h0)) (by simp), fun hne => absurd (by rw [he]) hne⟩
  · exact ⟨fun _ _ => hcons, fun _ => .inl hcons⟩
  · refine ⟨fun h1 h0 => ?_, fun hne => ?_⟩
    · rw [hb, setEntropy_entv_getLsbD, h1] at h0
      exact absurd h0 (by simp)
    · have hj : j = j' := by
        by_contra hj
        exact hne (by rw [hb, setEntropy_ent_getElem, if_neg hj])
      subst hj
      refine .inr ⟨r, w, hr, hd, ?_, ?_⟩
      · rw [hb, setEntropy_ent_getElem, if_pos rfl]
      · rw [hb, setEntropy_entv_getLsbD]
        simp

/-- Settles O42: the reset block is a scrubbed one, and in PHASE IDLE the remaining-bits law asks nothing. -/
theorem invariantsHoldAtReset : Obligations.InvariantsHoldAtReset :=
  ⟨reset_inv, fun _ _ => ⟨fun h => absurd h (by decide), fun h => absurd h (by decide)⟩⟩

end Sys2Proof.Machine

/-! ## The host port and the entropy's layout (20_memory.md) -/

namespace Sys2Proof.Machine

/-! ### The register map and the direction of a transaction -/

section RegisterMap

/-- The register's direction in the map: written (ENT, CMD) or read (R53, R56). -/
def regIsWritten : Reg → Bool
  | .ent _ => true
  | .cmd => true
  | .status => false
  | .idx _ => false
  | .word _ _ => false

/-- The instruction's direction: the four read rows are reads, and a CMD row is a write to CMD (R80). -/
def instrIsWrite : Instr → Bool
  | .rdStatus => false
  | .rdIdxLo _ => false
  | .rdIdxHi _ => false
  | .rdWordLo _ _ => false
  | .rdWordHi _ _ => false
  | _ => true

variable (t : BusCode)

theorem busAddr_toNat : (busAddr t).toNat = t.toNat % 4096 := by simp [busAddr]

theorem busIsWrite_eq_decide : busIsWrite t = decide (4096 ≤ t.toNat) := by
  have hlt := t.isLt
  rw [busIsWrite, BitVec.getLsbD, Nat.testBit_eq_decide_div_mod_eq]
  exact decide_eq_decide.mpr (by omega)

variable {t}

/-- A row that fixes the top bits of a BUS code and its alignment bounds the code as a number. -/
theorem busRow_range {lo len : Nat} {v : BitVec len} (htop : lo + len = 13) (hrow : t.extractLsb' lo len = v)
    (halign : t.extractLsb' 0 2 = 0) :
    t.toNat % 4 = 0 ∧ v.toNat * 2 ^ lo ≤ t.toNat ∧ t.toNat < (v.toNat + 1) * 2 ^ lo := by
  have hv : v.toNat = t.toNat / 2 ^ lo := by
    rw [← hrow, BitVec.extractLsb'_toNat, Nat.shiftRight_eq_div_pow, Nat.mod_eq_of_lt]
    rw [Nat.div_lt_iff_lt_mul (by positivity), ← pow_add, Nat.add_comm, htop]
    exact t.isLt
  rw [hv]
  exact ⟨by simpa using congrArg BitVec.toNat halign, Nat.div_mul_le_self _ _,
    (Nat.div_lt_iff_lt_mul (by positivity)).mp (Nat.lt_succ_self _)⟩

/-- The addresses of ENT0 to ENT7 (R53). -/
theorem regAt_ent {a : Addr} (h4 : a.toNat % 4 = 0) (hhi : a.toNat < 0x020) :
    regAt a = some (.ent (a.toNat / 4)) := by
  simp [regAt, h4, hhi]

/-- The addresses of IDX0 to IDX23 (R53). -/
theorem regAt_idx {a : Addr} (h4 : a.toNat % 4 = 0) (hlo : 0x040 ≤ a.toNat) (hhi : a.toNat < 0x0A0) :
    regAt a = some (.idx ((a.toNat - 0x040) / 4)) := by
  simp [regAt, h4, hhi, show ¬ a.toNat < 0x020 by omega, show a.toNat ≠ 0x020 by omega,
    show a.toNat ≠ 0x024 by omega, show ¬ a.toNat < 0x040 by omega]

/-- The addresses of WORD0_0 to WORD23_3 (R53). -/
theorem regAt_word {a : Addr} (h4 : a.toNat % 4 = 0) (hlo : 0x100 ≤ a.toNat) (hhi : a.toNat < 0x280) :
    regAt a = some (.word ((a.toNat - 0x100) / 16) ((a.toNat - 0x100) % 16 / 4)) := by
  simp [regAt, h4, hhi, show ¬ a.toNat < 0x020 by omega, show a.toNat ≠ 0x020 by omega,
    show a.toNat ≠ 0x024 by omega, show ¬ a.toNat < 0x040 by omega, show ¬ a.toNat < 0x0A0 by omega,
    show ¬ a.toNat < 0x100 by omega]

/-- The code of a write of ENT0 to ENT7. -/
theorem busCode_ent (h4 : t.toNat % 4 = 0) (hlo : 0x1000 ≤ t.toNat) (hhi : t.toNat < 0x1020) :
    busIsWrite t = true ∧ ∃ j, regAt (busAddr t) = some (.ent j) := by
  have ha := busAddr_toNat t
  exact ⟨by simpa [busIsWrite_eq_decide] using hlo, _, regAt_ent (by omega) (by omega)⟩

/-- The code of a read of IDX0 to IDX23. -/
theorem busCode_idx (h4 : t.toNat % 4 = 0) (hlo : 0x0040 ≤ t.toNat) (hhi : t.toNat < 0x00A0) :
    busIsWrite t = false ∧ ∃ i, regAt (busAddr t) = some (.idx i) := by
  have ha := busAddr_toNat t
  exact ⟨by rw [busIsWrite_eq_decide]; exact decide_eq_false (by omega), _,
    regAt_idx (by omega) (by omega) (by omega)⟩

/-- The code of a read of WORD0_0 to WORD23_3. -/
theorem busCode_word (h4 : t.toNat % 4 = 0) (hlo : 0x0100 ≤ t.toNat) (hhi : t.toNat < 0x0280) :
    busIsWrite t = false ∧ ∃ i q, regAt (busAddr t) = some (.word i q) := by
  have ha := busAddr_toNat t
  exact ⟨by rw [busIsWrite_eq_decide]; exact decide_eq_false (by omega), _, _,
    regAt_word (by omega) (by omega) (by omega)⟩

variable (t)

/-- A BUS code is a row's, at a register of the map and in that register's direction, or it is answered BUSERR in its own
direction (R54, R56, R90). -/
theorem decodeBus_instr_or_busErr (d : Word) :
    (∃ i reg, decodeBus t d = .instr i ∧ regAt (busAddr t) = some reg ∧ regIsWritten reg = busIsWrite t ∧
      instrIsWrite i = busIsWrite t) ∨
    decodeBus t d = .busErr (busCause t) (busIsWrite t) := by
  rcases decodeBus_cases t d with ⟨hrow, halign, h⟩ | ⟨rfl, h⟩ | ⟨rfl, h⟩ | ⟨hrow, halign, h⟩ |
    ⟨hrow, halign, h⟩ | ⟨hrow, halign, h⟩ | ⟨hrow, halign, h⟩ | h
  · obtain ⟨h4, hlo, hhi⟩ := busRow_range rfl hrow halign
    obtain ⟨hdir, j, hreg⟩ := busCode_ent h4 (le_trans (by decide) hlo) (lt_of_lt_of_le hhi (by decide))
    exact .inl ⟨_, _, h, hreg, hdir.symm, hdir.symm⟩
  · exact .inl ⟨_, .cmd, h, by decide, rfl, rfl⟩
  · exact .inl ⟨_, .status, h, by decide, rfl, rfl⟩
  · obtain ⟨h4, hlo, hhi⟩ := busRow_range rfl hrow halign
    obtain ⟨hdir, i, hreg⟩ := busCode_idx h4 (le_trans (by decide) hlo) (lt_of_lt_of_le hhi (by decide))
    exact .inl ⟨_, _, h, hreg, hdir.symm, hdir.symm⟩
  · obtain ⟨h4, hlo, hhi⟩ := busRow_range rfl hrow halign
    obtain ⟨hdir, i, hreg⟩ := busCode_idx h4 (le_trans (by decide) hlo) (lt_of_lt_of_le hhi (by decide))
    exact .inl ⟨_, _, h, hreg, hdir.symm, hdir.symm⟩
  · obtain ⟨h4, hlo, hhi⟩ := busRow_range rfl hrow halign
    obtain ⟨hdir, i, q, hreg⟩ := busCode_word h4 (le_trans (by decide) hlo) (lt_of_lt_of_le hhi (by decide))
    exact .inl ⟨_, _, h, hreg, hdir.symm, hdir.symm⟩
  · obtain ⟨h4, hlo, hhi⟩ := busRow_range rfl hrow halign
    obtain ⟨hdir, i, q, hreg⟩ := busCode_word h4 (le_trans (by decide) hlo) (lt_of_lt_of_le hhi (by decide))
    exact .inl ⟨_, _, h, hreg, hdir.symm, hdir.symm⟩
  · exact .inr h

end RegisterMap

/-! ### Reads and unadmitted transactions -/

/-- A read row answers with a function of the block, and does nothing else (R62). -/
theorem exec_read {i : Instr} (hi : instrIsWrite i = false) :
    ∃ answer : Block → Response, ∀ s, exec i s = .next (s.respond (answer s.block)) := by
  cases i with
  | rdStatus => exact ⟨fun b => readOkay (statusWord b), fun _ => rfl⟩
  | rdIdxLo p => exact ⟨fun b => readOutput b p (idxWord b p), fun _ => rfl⟩
  | rdIdxHi p => exact ⟨fun b => readOutput b p (idxWord b p), fun _ => rfl⟩
  | rdWordLo p q => exact ⟨fun b => readOutput b p (wordWord b p q), fun _ => rfl⟩
  | rdWordHi p q => exact ⟨fun b => readOutput b p (wordWord b p q), fun _ => rfl⟩
  | nop | clear | encode | encode12 | encode24 | entropyFail | wrEnt | wrCmd => exact absurd hi (by simp [instrIsWrite])

/-- So does every BUS code of direction 0, a row's or not (R62). -/
theorem runHost_read {t : BusCode} (ht : busIsWrite t = false) (d : Word) :
    ∃ answer : Block → Response, ∀ s, runHost (.bus t d) s = .next (s.respond (answer s.block)) := by
  rcases decodeBus_instr_or_busErr t d with ⟨i, -, h, -, -, hi⟩ | h
  · obtain ⟨answer, hanswer⟩ := exec_read (hi.trans ht)
    exact ⟨answer, fun s => (runHost_instr (r := .bus t d) h s).trans (hanswer s)⟩
  · exact ⟨fun _ => busErrFor (busIsWrite t), runHost_busErr (r := .bus t d) h⟩

/-! ### The entropy's bytes -/

/-- The bytes of registers denote what the registers do, the first one most significant (R57). -/
theorem bytesVal_flatMap_wordBytes (ws : List Word) :
    bytesVal (ws.flatMap wordBytes) = ws.foldl (fun acc w => acc * 2 ^ 32 + w.toNat) 0 := by
  simp only [bytesVal, List.foldl_flatMap, foldl_wordBytes]

/-! ### Two blocks the host cannot tell apart -/

section SameView

/-- `SameControl` of two blocks: they agree on everything but ENT, L, C and IDX. -/
structure Block.SameControl (a b : Block) : Prop where
  entv : a.entv = b.entv
  nwords : a.nwords = b.nwords
  phase : a.phase = b.phase
  j : a.j = b.j
  done : a.done = b.done
  fatal : a.fatal = b.fatal
  err : a.err = b.err

/-- `SameView` of two blocks: a valid output is the same too. -/
structure Block.SameView (a b : Block) : Prop extends a.SameControl b where
  idx : a.done = true → a.idx = b.idx

theorem sameControl_iff {s t : State} :
    SameControl s t ↔ s.events = t.events ∧ s.responses = t.responses ∧ s.block.SameControl t.block :=
  ⟨fun ⟨he, hr, h1, h2, h3, h4, h5, h6, h7⟩ => ⟨he, hr, h1, h2, h3, h4, h5, h6, h7⟩,
   fun ⟨he, hr, h1, h2, h3, h4, h5, h6, h7⟩ => ⟨he, hr, h1, h2, h3, h4, h5, h6, h7⟩⟩

theorem sameView_iff {s t : State} :
    SameView s t ↔ s.events = t.events ∧ s.responses = t.responses ∧ s.block.SameView t.block := by
  rw [SameView, sameControl_iff]
  exact ⟨fun ⟨⟨he, hr, hc⟩, hi⟩ => ⟨he, hr, hc, hi⟩, fun ⟨he, hr, hc, hi⟩ => ⟨⟨he, hr, hc⟩, hi⟩⟩

variable {a b : Block}

theorem Block.SameView.refl (b : Block) : b.SameView b := ⟨⟨rfl, rfl, rfl, rfl, rfl, rfl, rfl⟩, fun _ => rfl⟩

theorem Block.SameView.busy (h : a.SameView b) : busy a = busy b := by simp only [Machine.busy, h.phase]

/-! #### What a host transaction makes of them -/

theorem reject_sameView (h : a.SameView b) (e : ErrCode) : (reject e a).SameView (reject e b) := { h with err := rfl }

theorem clearOutput_sameView (h : a.SameView b) : (clearOutput a).SameView (clearOutput b) :=
  { h with nwords := rfl, done := rfl, idx := fun _ => rfl }

theorem scrub_sameView (h : a.SameView b) : (scrub a).SameView (scrub b) :=
  { h with entv := rfl, nwords := rfl, phase := rfl, j := rfl, done := rfl, idx := fun _ => rfl }

theorem accept_sameView (h : a.SameView b) (m : Mode) : (accept m a).SameView (accept m b) :=
  { h with nwords := rfl, phase := rfl, done := rfl, err := rfl, idx := fun _ => rfl }

theorem setEntropy_sameView (h : a.SameView b) (j : Fin 8) (w : Word) :
    (setEntropy j w a).SameView (setEntropy j w b) :=
  { h with entv := by rw [setEntropy_entv, setEntropy_entv, h.entv] }

theorem clearBlock_sameView (h : a.SameView b) : (clearBlock a).SameView (clearBlock b) :=
  reject_sameView (scrub_sameView h) .none

theorem failBlock_sameView (h : a.SameView b) : (failBlock a).SameView (failBlock b) :=
  { clearBlock_sameView h with fatal := rfl, err := rfl }

/-- The checks of an ENCODE read no secret (R104). -/
theorem encodeBlock_sameView (h : a.SameView b) (n : BitVec 8) : (encodeBlock n a).SameView (encodeBlock n b) := by
  unfold encodeBlock
  rw [h.fatal, h.busy, h.entv]
  split
  · exact reject_sameView h _
  split
  · exact reject_sameView h _
  split
  · exact clearOutput_sameView (reject_sameView h _)
  split
  · exact clearOutput_sameView (reject_sameView h _)
  · exact accept_sameView h _

/-- Nor do those of an entropy write (R100). -/
theorem entropyBlock_sameView (h : a.SameView b) (j : Fin 8) (w : Word) :
    (entropyBlock j w a).SameView (entropyBlock j w b) := by
  unfold entropyBlock
  rw [h.fatal, h.busy]
  split
  · exact reject_sameView h _
  split
  · exact reject_sameView h _
  · exact setEntropy_sameView h j w

theorem runCommand_sameView (h : a.SameView b) (c : Command) : (runCommand c a).SameView (runCommand c b) := by
  cases c with
  | nop => exact h
  | clear => exact clearBlock_sameView h
  | encode n => exact encodeBlock_sameView h n
  | entropyFail => exact failBlock_sameView h
  | badCommand => exact reject_sameView h _

/-! #### What a read shows of them -/

theorem statusWord_eq_of_sameView (h : a.SameView b) : statusWord a = statusWord b := by
  simp only [statusWord, h.busy, h.entv, h.nwords, h.err, h.fatal, h.done]

/-- The gate of an output read: the data is looked at only where the output is valid (R110, R111). -/
theorem readOutput_eq_of_sameView (h : a.SameView b) (i : Fin 24) {d d' : Word} (hd : a.idx = b.idx → d = d') :
    readOutput a i d = readOutput b i d' := by
  unfold readOutput readable
  rw [← h.done, ← h.nwords]
  cases hdone : a.done with
  | false => rfl
  | true => rw [hd (h.idx hdone)]

theorem readIdx_eq_of_sameView (h : a.SameView b) (i : Fin 24) :
    readOutput a i (idxWord a i) = readOutput b i (idxWord b i) :=
  readOutput_eq_of_sameView h i fun hidx => by rw [idxWord, idxWord, hidx]

theorem readWord_eq_of_sameView (h : a.SameView b) (i : Fin 24) (q : Fin 4) :
    readOutput a i (wordWord a i q) = readOutput b i (wordWord b i q) :=
  readOutput_eq_of_sameView h i fun hidx => by rw [wordWord, wordWord, hidx]

/-! #### What the sequencer makes of them -/

/-- A block without valid output shows the host its control elements only. -/
theorem Block.SameControl.sameView (h : a.SameControl b) (hd : a.done = false) : a.SameView b :=
  { h with idx := fun h' => absurd (hd.symm.trans h') (by simp) }

variable (m : Mode)

theorem loadStep_sameControl (h : a.SameControl b) : (loadStep m a).SameControl (loadStep m b) :=
  { h with phase := rfl }

theorem checksumStep_sameControl (h : a.SameControl b) : (checksumStep m a).SameControl (checksumStep m b) :=
  { h with phase := rfl }

theorem lastStep_sameControl (h : a.SameControl b) : (lastStep m a).SameControl (lastStep m b) := by
  cases m
  · exact { h with phase := rfl, j := rfl }
  · exact { h with phase := rfl, j := rfl }

/-- The loop of SLICE is counted by J, which is no secret (R138). -/
theorem sliceStep_sameControl (h : a.SameControl b) : (sliceStep m a).SameControl (sliceStep m b) where
  entv := by simp only [sliceStep_entv, h.entv]
  nwords := by simp only [sliceStep_nwords, h.nwords]
  phase := by simp only [sliceStep_phase, h.phase, h.j]
  j := by simp only [sliceStep_j, h.j]
  done := by simp only [sliceStep_done, h.done]
  fatal := by simp only [sliceStep_fatal, h.fatal]
  err := by simp only [sliceStep_err, h.err]

theorem completeStep_sameControl (h : a.SameControl b) : (completeStep a).SameControl (completeStep b) :=
  { h with entv := rfl, phase := rfl, j := rfl, done := rfl }

variable {m}

/-- The sequencer's step depends on no secret, and as a running encoding has no valid output (R38 item 2), only COMPLETE
shows a result. -/
theorem microStep_sameView {a' : Block} (hi : a.Inv) (h : a.SameView b) (hm : microStep a = some a') :
    ∃ b', microStep b = some b' ∧ a'.SameControl b' ∧ (a.phase ≠ .complete → a'.SameView b') := by
  have hmode : ∀ {m}, inMode a m → inMode b m := fun h' => by rwa [inMode, ← h.nwords]
  have hdone : ∀ {p : Phase}, a.phase = p → p ≠ .idle → a.done = false := fun hp hne =>
    have ⟨_, hd, _⟩ := hi.busyMode (hp ▸ hne)
    hd
  rcases microStep_cases hm with
    ⟨hp, rfl⟩ | ⟨m, hin, hp, rfl⟩ | ⟨m, hin, hp, rfl⟩ | ⟨m, hin, hp, rfl⟩ | ⟨m, hin, hp, rfl⟩ | ⟨hp, rfl⟩
  · exact ⟨b, by simp only [microStep, ← h.phase, hp], h.toSameControl, fun _ => h⟩
  · have hc := loadStep_sameControl m h.toSameControl
    obtain ⟨hstep, -⟩ := microStep_of_phase (hmode hin)
    exact ⟨_, hstep (h.phase ▸ hp), hc, fun _ => hc.sameView (hdone hp (by simp))⟩
  · have hc := checksumStep_sameControl m h.toSameControl
    obtain ⟨-, hstep, -⟩ := microStep_of_phase (hmode hin)
    exact ⟨_, hstep (h.phase ▸ hp), hc, fun _ => hc.sameView (hdone hp (by simp))⟩
  · have hc := lastStep_sameControl m h.toSameControl
    obtain ⟨-, -, hstep, -⟩ := microStep_of_phase (hmode hin)
    exact ⟨_, hstep (h.phase ▸ hp), hc, fun _ => hc.sameView ((lastStep_done a m).trans (hdone hp (by simp)))⟩
  · have hc := sliceStep_sameControl m h.toSameControl
    obtain ⟨-, -, -, hstep, -⟩ := microStep_of_phase (hmode hin)
    exact ⟨_, hstep (h.phase ▸ hp), hc, fun _ => hc.sameView ((sliceStep_done a m).trans (hdone hp (by simp)))⟩
  · exact ⟨_, by simp only [microStep, ← h.phase, hp], completeStep_sameControl h.toSameControl,
      fun hne => absurd hp hne⟩

end SameView

/-! ### Two states the host cannot tell apart -/

section SameViewStates

/-- Both go on, to states the host cannot tell apart. -/
def GoOnAlike (o o' : Host.Outcome State Fault Refusal) : Prop :=
  ∃ s' t', o = .next s' ∧ o' = .next t' ∧ SameView s' t'

variable {s t : State} (h : SameView s t)

include h

theorem finishWrite_alike {a b : Block} (hb : a.SameView b) : GoOnAlike (finishWrite a s) (finishWrite b t) := by
  obtain ⟨he, hr, -⟩ := sameView_iff.mp h
  exact ⟨_, _, rfl, rfl, sameView_iff.mpr ⟨he, congrArg (writeOkay :: ·) hr, hb⟩⟩

theorem finishRead_alike {r r' : Response} (hr' : r = r') : GoOnAlike (finishRead r s) (finishRead r' t) := by
  obtain ⟨he, hr, hb⟩ := sameView_iff.mp h
  subst hr'
  exact ⟨_, _, rfl, rfl, sameView_iff.mpr ⟨he, congrArg (r :: ·) hr, hb⟩⟩

theorem exec_alike (i : Instr) : GoOnAlike (exec i s) (exec i t) := by
  obtain ⟨-, -, hb⟩ := sameView_iff.mp h
  cases i with
  | nop => exact finishWrite_alike h hb
  | clear => exact finishWrite_alike h (clearBlock_sameView hb)
  | encode n => exact finishWrite_alike h (encodeBlock_sameView hb n)
  | encode12 => exact finishWrite_alike h (encodeBlock_sameView hb 12)
  | encode24 => exact finishWrite_alike h (encodeBlock_sameView hb 24)
  | entropyFail => exact finishWrite_alike h (failBlock_sameView hb)
  | wrEnt j w => exact finishWrite_alike h (entropyBlock_sameView hb j w)
  | wrCmd w => exact finishWrite_alike h (runCommand_sameView hb _)
  | rdStatus => exact finishRead_alike h (congrArg readOkay (statusWord_eq_of_sameView hb))
  | rdIdxLo p => exact finishRead_alike h (readIdx_eq_of_sameView hb p)
  | rdIdxHi p => exact finishRead_alike h (readIdx_eq_of_sameView hb p)
  | rdWordLo p q => exact finishRead_alike h (readWord_eq_of_sameView hb p q)
  | rdWordHi p q => exact finishRead_alike h (readWord_eq_of_sameView hb p q)

/-- Every host transaction is answered alike, and leaves states the host cannot tell apart. -/
theorem runHost_alike (r : Raw) : GoOnAlike (runHost r s) (runHost r t) := by
  obtain ⟨-, -, hb⟩ := sameView_iff.mp h
  unfold runHost
  split
  · exact exec_alike h _
  · exact finishWrite_alike h (reject_sameView hb _)
  · exact finishRead_alike h rfl

end SameViewStates

/-! ### The obligations -/

/-- Settles O52, by the kinds of step: the sequencer's step reads no secret and shows no result before COMPLETE, every host
transaction is answered alike, and a reset leaves one block only. -/
theorem secretsDoNotReachTheHostBeforeCompletion : Obligations.SecretsDoNotReachTheHostBeforeCompletion := by
  intro s t s' hi h hs
  obtain ⟨he, hr, hb⟩ := sameView_iff.mp h
  obtain ⟨hev, ⟨hturn, hm, hresp⟩ | ⟨r, hhost, hrun⟩ | ⟨hrst, hblock, hresp⟩⟩ := step_cases hs
  · obtain ⟨b', hb', hc, hv⟩ := microStep_sameView hi hb hm
    have hturn' : seqTurn t := by rwa [seqTurn, ← he]
    have hev' : s'.events = t.events.tail := by rw [hev, he]
    exact ⟨_, step_seqTurn hturn' hb', sameControl_iff.mpr ⟨hev', hresp.trans hr, hc⟩,
      fun hne => sameView_iff.mpr ⟨hev', hresp.trans hr, hv hne⟩⟩
  · obtain ⟨rest, hrest⟩ := List.head?_eq_some_iff.mp hhost
    have hset : SameView (s.setEvents rest) (t.setEvents rest) := sameView_iff.mpr ⟨rfl, hr, hb⟩
    obtain ⟨u, t', hu, ht', hview⟩ := runHost_alike hset r
    obtain rfl : u = s' := by
      rw [hrest, List.tail_cons, hu] at hrun
      cases hrun
      rfl
    exact ⟨t', (step_host (he.symm.trans hrest)).trans ht', hview.1, fun _ => hview⟩
  · obtain ⟨rest, hrest⟩ := List.head?_eq_some_iff.mp hrst
    have hview : SameView s' ((t.setEvents rest).setBlock Block.reset) :=
      sameView_iff.mpr ⟨by simp [hev, hrest], hresp.trans hr, hblock ▸ .refl _⟩
    exact ⟨_, step_rst (he.symm.trans hrest), hview.1, fun _ => hview⟩

/-- Settles O8: a code of a row names a register in its direction, which the premise excludes, so it is answered BUSERR. -/
theorem unadmittedTransactionGetsBusErr : Obligations.UnadmittedTransactionGetsBusErr := by
  intro s t d rest he hnot
  rcases decodeBus_instr_or_busErr t d with ⟨-, reg, -, hreg, hw, -⟩ | h
  · have hdir := hnot reg hreg
    rw [← hw] at hdir
    cases reg <;> exact absurd hdir (by simp [regIsWritten])
  · rw [step_host he, runHost_busErr (r := .bus t d) h]
    cases busIsWrite t <;> rfl

/-- Settles O25: the answer to a read is a function of the block, which the read leaves as it is. -/
theorem readsHaveNoSideEffects : Obligations.ReadsHaveNoSideEffects := by
  intro s t d ht
  obtain ⟨answer, h⟩ := runHost_read ht d
  exact ⟨answer s.block, h s, h _⟩

/-- Settles O32: both sides are the registers read on one after the other, a limb being two of them. -/
theorem loadedLimbsDenoteTheEntropy : Obligations.LoadedLimbsDenoteTheEntropy := by
  intro m ent
  rw [entropyVal, entBytes, bytesVal_flatMap_wordBytes, ent_toList]
  cases m
  · rw [limbVal_w12]
    simp [loadLimbs, entLimb_toNat, mode_constants]
    omega
  · rw [limbVal_w24]
    simp [loadLimbs, entLimb_toNat, mode_constants]
    omega

/-- Settles O6: the step takes the transaction off the pending events, and the transaction runs its instruction. -/
theorem stepRunsTheDecodedInstruction : Obligations.StepRunsTheDecodedInstruction :=
  fun _ _ _ _ he hd => (step_host he).trans (runHost_instr hd _)

end Sys2Proof.Machine

/-! ## The encoding (30_encoding.md) -/

namespace Sys2Proof.Machine

/-! ### The command words (R80 to R85) -/

section CommandWords

/-- The word of each command but BAD_COMMAND, which has none (R81). -/
def wordOfCommand : Command → Option Word
  | .nop => some (cmdWord 0 0)
  | .clear => some (cmdWord 1 0)
  | .encode n => some (cmdWord 2 n)
  | .entropyFail => some (cmdWord 3 0)
  | .badCommand => none

theorem decodeCmd_encodeWord : ∀ n : BitVec 8, decodeCmd (cmdWord 2 n) = .encode n := by decide

/-- The word of ENCODE as R81 writes it, `0x0000nn02`. -/
theorem cmdWord_encode : ∀ n : BitVec 8, cmdWord 2 n = 0x0000#16 ++ n ++ 0x02#8 := by decide

variable {w : Word}

theorem decodeCmd_of_wordOfCommand {c : Command} (h : wordOfCommand c = some w) : decodeCmd w = c := by
  cases c <;> cases h
  case encode n => exact decodeCmd_encodeWord n
  all_goals decide

/-- A word with its reserved fields zero is the word of its OP and ARG (R80). -/
theorem eq_cmdWord (h1 : cmdRsv1 w = 0) (h0 : cmdRsv0 w = 0) : w = cmdWord (cmdOp w) (cmdArg w) := by
  have happend : cmdRsv1 w ++ cmdArg w ++ cmdRsv0 w ++ cmdOp w = w := by
    simp only [cmdRsv1, cmdArg, cmdRsv0, cmdOp]
    rw [BitVec.extractLsb'_append_extractLsb'_eq_extractLsb' (by decide : 16 = 8 + 8),
      BitVec.extractLsb'_append_extractLsb'_eq_extractLsb' (by decide : 8 = 4 + 4),
      BitVec.extractLsb'_append_extractLsb'_eq_extractLsb' (by decide : 4 = 0 + 4)]
    exact BitVec.extractLsb'_eq_self
  rw [h1, h0] at happend
  exact happend.symm

/-- A legal word is the word of the command it decodes to: its OP is one of four, and decides the rest (R81, R84). -/
theorem wordOfCommand_decodeCmd (h : decodeCmd w ≠ .badCommand) : wordOfCommand (decodeCmd w) = some w := by
  obtain ⟨h1, h0, hop, harg⟩ := decodeCmd_legal h
  have hops : ∀ op : BitVec 4, op.toNat < 4 → op = 0 ∨ op = 1 ∨ op = 2 ∨ op = 3 := by decide
  have hw := eq_cmdWord h1 h0
  generalize cmdArg w = arg at hw harg
  rcases hops _ hop with hop | hop | hop | hop <;> rw [hop] at hw harg
  case inr.inr.inl => rw [hw, decodeCmd_encodeWord]; rfl
  all_goals
    obtain rfl : arg = 0 := harg.resolve_left (by decide)
    rw [hw]
    decide

theorem decodeCmd_eq_iff {c : Command} (hc : c ≠ .badCommand) : decodeCmd w = c ↔ wordOfCommand c = some w :=
  ⟨fun h => h ▸ wordOfCommand_decodeCmd (h ▸ hc), decodeCmd_of_wordOfCommand⟩

/-- Which words are illegal (R84, R85). -/
theorem decodeCmd_badCommand_iff : decodeCmd w = .badCommand ↔
    cmdRsv1 w ≠ 0 ∨ cmdRsv0 w ≠ 0 ∨ 4 ≤ (cmdOp w).toNat ∨ (cmdArg w ≠ 0 ∧ cmdOp w ≠ 2) := by
  constructor
  · intro h
    unfold decodeCmd at h
    split_ifs at h <;> tauto
  · intro h
    by_contra hlegal
    obtain ⟨h1, h0, hop, harg⟩ := decodeCmd_legal hlegal
    rcases h with h | h | h | ⟨ha, ho⟩
    · exact h h1
    · exact h h0
    · omega
    · exact harg.elim ho ha

/-- The row of a CMD word is well-formed, and spells that word (R81). -/
theorem encode_of_rowOfCommand {i : Instr} (h : rowOfCommand (decodeCmd w) = .instr i) :
    i.wf = true ∧ encode i = .cmd w := by
  have hlegal : decodeCmd w ≠ .badCommand := fun hbad => by rw [hbad] at h; cases h
  have hw := wordOfCommand_decodeCmd hlegal
  generalize decodeCmd w = c at h hw
  cases c <;> cases hw
  case encode n =>
    simp only [rowOfCommand] at h
    split_ifs at h with h12 h24 <;> cases h
    · exact ⟨rfl, by rw [h12]; rfl⟩
    · exact ⟨rfl, by rw [h24]; rfl⟩
    · exact ⟨by simpa [Instr.wf] using ⟨h12, h24⟩, rfl⟩
  all_goals
    cases h
    exact ⟨rfl, rfl⟩

end CommandWords

/-! ### The BUS rows as intervals of aligned codes (R90) -/

section BusRows

/-- A multiple of 4 from `lo` on and below `hi`: the form of every BUS row and of every group of registers. -/
abbrev AlignedIn (lo hi n : Nat) : Prop := n % 4 = 0 ∧ lo ≤ n ∧ n < hi

/-- The codes that match a BUS row (`decodeBus_ranges`): the writes of ENT and CMD, and the reads of STATUS, IDX and
WORD. -/
abbrev Admitted (n : Nat) : Prop :=
  AlignedIn 0x1000 0x1024 n ∨ AlignedIn 0x0024 0x0028 n ∨ AlignedIn 0x0040 0x00A0 n ∨ AlignedIn 0x0100 0x0280 n

variable {t : BusCode}

/-- A row that fixes the top bits of a code and its alignment is an interval. -/
theorem topBits_iff_alignedIn {lo len : Nat} {v : BitVec len} (htop : lo + len = 13) :
    (t.extractLsb' lo len = v ∧ t.extractLsb' 0 2 = 0) ↔
      AlignedIn (v.toNat * 2 ^ lo) ((v.toNat + 1) * 2 ^ lo) t.toNat := by
  refine ⟨fun ⟨hrow, halign⟩ => busRow_range htop hrow halign, fun ⟨h4, hlo, hhi⟩ => ⟨?_, ?_⟩⟩
  · apply BitVec.eq_of_toNat_eq
    rw [BitVec.extractLsb'_toNat, Nat.shiftRight_eq_div_pow, Nat.div_eq_of_lt_le hlo hhi, Nat.mod_eq_of_lt v.isLt]
  · exact BitVec.eq_of_toNat_eq (by simpa using h4)

/-- So is a single aligned code. -/
theorem eq_iff_alignedIn {v : BusCode} (h4 : v.toNat % 4 = 0) : t = v ↔ AlignedIn v.toNat (v.toNat + 4) t.toNat := by
  rw [← BitVec.toNat_inj]
  omega

theorem wrEntRow_iff : busRow t 0x1000 0x1FE3 = true ↔ AlignedIn 0x1000 0x1020 t.toNat :=
  (busRow_wrEnt t).trans (topBits_iff_alignedIn rfl)

theorem wrCmdRow_iff : busRow t 0x1020 0x1FFF = true ↔ AlignedIn 0x1020 0x1024 t.toNat :=
  (busRow_exact t _).trans (eq_iff_alignedIn rfl)

theorem rdStatusRow_iff : busRow t 0x0024 0x1FFF = true ↔ AlignedIn 0x0024 0x0028 t.toNat :=
  (busRow_exact t _).trans (eq_iff_alignedIn rfl)

theorem rdIdxLoRow_iff : busRow t 0x0040 0x1FC3 = true ↔ AlignedIn 0x0040 0x0080 t.toNat :=
  (busRow_rdIdxLo t).trans (topBits_iff_alignedIn rfl)

theorem rdIdxHiRow_iff : busRow t 0x0080 0x1FE3 = true ↔ AlignedIn 0x0080 0x00A0 t.toNat :=
  (busRow_rdIdxHi t).trans (topBits_iff_alignedIn rfl)

theorem rdWordLoRow_iff : busRow t 0x0100 0x1F03 = true ↔ AlignedIn 0x0100 0x0200 t.toNat :=
  (busRow_rdWordLo t).trans (topBits_iff_alignedIn rfl)

theorem rdWordHiRow_iff : busRow t 0x0200 0x1F83 = true ↔ AlignedIn 0x0200 0x0280 t.toNat :=
  (busRow_rdWordHi t).trans (topBits_iff_alignedIn rfl)

variable (t)

/-- `decodeBus_cases` by the interval a code lies in, where a code answered BUSERR lies in none. -/
theorem decodeBus_ranges (d : Word) :
    (AlignedIn 0x1000 0x1020 t.toNat ∧ decodeBus t d = .instr (.wrEnt (busField3 t 2) d)) ∨
    (AlignedIn 0x1020 0x1024 t.toNat ∧ decodeBus t d = .instr (.wrCmd d)) ∨
    (AlignedIn 0x0024 0x0028 t.toNat ∧ decodeBus t d = .instr .rdStatus) ∨
    (AlignedIn 0x0040 0x0080 t.toNat ∧ decodeBus t d = .instr (.rdIdxLo (posLo (busField4 t 2)))) ∨
    (AlignedIn 0x0080 0x00A0 t.toNat ∧ decodeBus t d = .instr (.rdIdxHi (posHi (busField3 t 2)))) ∨
    (AlignedIn 0x0100 0x0200 t.toNat ∧
      decodeBus t d = .instr (.rdWordLo (posLo (busField4 t 4)) (busField2 t 2))) ∨
    (AlignedIn 0x0200 0x0280 t.toNat ∧
      decodeBus t d = .instr (.rdWordHi (posHi (busField3 t 4)) (busField2 t 2))) ∨
    (¬ Admitted t.toNat ∧ decodeBus t d = .busErr (busCause t) (busIsWrite t)) := by
  simp only [decodeBus, wrEntRow_iff, wrCmdRow_iff, rdStatusRow_iff, rdIdxLoRow_iff, rdIdxHiRow_iff, rdWordLoRow_iff,
    rdWordHiRow_iff]
  split_ifs with h1 h2 h3 h4 h5 h6 h7
  · exact .inl ⟨h1, rfl⟩
  · exact .inr (.inl ⟨h2, rfl⟩)
  · exact .inr (.inr (.inl ⟨h3, rfl⟩))
  · exact .inr (.inr (.inr (.inl ⟨h4, rfl⟩)))
  · exact .inr (.inr (.inr (.inr (.inl ⟨h5, rfl⟩))))
  · exact .inr (.inr (.inr (.inr (.inr (.inl ⟨h6, rfl⟩)))))
  · exact .inr (.inr (.inr (.inr (.inr (.inr (.inl ⟨h7, rfl⟩))))))
  · exact .inr (.inr (.inr (.inr (.inr (.inr (.inr ⟨by omega, rfl⟩))))))

/-- The BUS rows of R90 as (match, mask). -/
def busRows : List (BusCode × BusCode) :=
  [(0x1000, 0x1FE3), (0x1020, 0x1FFF), (0x0024, 0x1FFF), (0x0040, 0x1FC3), (0x0080, 0x1FE3), (0x0100, 0x1F03),
    (0x0200, 0x1F83)]

/-- No code matches two rows, for the intervals are disjoint, and those that decode match one (R90). -/
theorem countP_busRows (d : Word) :
    busRows.countP (fun row => busRow t row.1 row.2) = if (decodeBus t d).instr?.isSome then 1 else 0 := by
  simp only [busRows, List.countP_cons, List.countP_nil, wrEntRow_iff, wrCmdRow_iff, rdStatusRow_iff, rdIdxLoRow_iff,
    rdIdxHiRow_iff, rdWordLoRow_iff, rdWordHiRow_iff]
  rcases decodeBus_ranges t d with ⟨h, hd⟩ | ⟨h, hd⟩ | ⟨h, hd⟩ | ⟨h, hd⟩ | ⟨h, hd⟩ | ⟨h, hd⟩ | ⟨h, hd⟩ | ⟨h, hd⟩
  all_goals
    simp only [hd, Decoded.instr?]
    simp (disch := omega) only [if_pos, if_neg]
    rfl

/-! #### The fields of a row -/

variable (lo : Nat)

theorem busField2_val : (busField2 t lo).val = t.toNat / 2 ^ lo % 4 := by
  simp [busField2, Nat.shiftRight_eq_div_pow]

theorem busField3_val : (busField3 t lo).val = t.toNat / 2 ^ lo % 8 := by
  simp [busField3, Nat.shiftRight_eq_div_pow]

theorem busField4_val : (busField4 t lo).val = t.toNat / 2 ^ lo % 16 := by
  simp [busField4, Nat.shiftRight_eq_div_pow]

theorem posLo_busField4_val : (posLo (busField4 t lo)).val = t.toNat / 2 ^ lo % 16 := busField4_val t lo

theorem posHi_busField3_val : (posHi (busField3 t lo)).val = 16 + t.toNat / 2 ^ lo % 8 :=
  congrArg (16 + ·) (busField3_val t lo)

variable {t}

/-- Fields put into a row's match value, whose `k` low bits are free for them, add to it. -/
theorem or_ofNat_eq {v n : Nat} (k : Nat) (hv : v % 2 ^ k = 0) (hn : n < 2 ^ k) (ht : t.toNat = v + n) :
    BitVec.ofNat 13 v ||| BitVec.ofNat 13 n = t := by
  have hlt := t.isLt
  apply BitVec.eq_of_toNat_eq
  rw [BitVec.toNat_or, BitVec.toNat_ofNat, BitVec.toNat_ofNat, Nat.mod_eq_of_lt (by omega : v < 2 ^ 13),
    Nat.mod_eq_of_lt (by omega : n < 2 ^ 13), ht]
  obtain ⟨q, rfl⟩ := Nat.dvd_of_mod_eq_zero hv
  exact (Nat.two_pow_add_eq_or_of_lt hn q).symm

/-! #### Codes spelled and registers named -/

/-- The codes below `0x1000` are reads (R80). -/
theorem busIsWrite_eq_false (h : t.toNat < 0x1000) : busIsWrite t = false := by
  rw [busIsWrite_eq_decide]
  exact decide_eq_false (by omega)

/-- What a BUS code decodes to is well-formed and spells the code: a write with its data word, a read with none (R90). -/
theorem encode_of_decodeBus {d : Word} {i : Instr} (h : decodeBus t d = .instr i) :
    i.wf = true ∧ (encode i = .bus t d ∨ busIsWrite t = false ∧ encode i = .bus t 0) := by
  rcases decodeBus_ranges t d with ⟨hr, hd⟩ | ⟨hr, hd⟩ | ⟨hr, hd⟩ | ⟨hr, hd⟩ | ⟨hr, hd⟩ | ⟨hr, hd⟩ | ⟨hr, hd⟩ |
    ⟨-, hd⟩ <;> rw [hd] at h <;> cases h
  · have hj := busField3_val t 2
    exact ⟨rfl, .inl (congrArg (Raw.bus · d) (or_ofNat_eq 5 rfl (by omega) (by omega)))⟩
  · obtain rfl := (eq_iff_alignedIn (v := 0x1020) rfl).mpr hr
    exact ⟨rfl, .inl rfl⟩
  · obtain rfl := (eq_iff_alignedIn (v := 0x0024) rfl).mpr hr
    exact ⟨rfl, .inr ⟨rfl, rfl⟩⟩
  · have hp := posLo_busField4_val t 2
    exact ⟨decide_eq_true (by omega), .inr ⟨busIsWrite_eq_false (by omega),
      congrArg (Raw.bus · 0) (or_ofNat_eq 6 rfl (by omega) (by omega))⟩⟩
  · have hp := posHi_busField3_val t 2
    exact ⟨decide_eq_true (by omega), .inr ⟨busIsWrite_eq_false (by omega),
      congrArg (Raw.bus · 0) (or_ofNat_eq 5 rfl (by omega) (by omega))⟩⟩
  · have hp := posLo_busField4_val t 4
    have hq := busField2_val t 2
    exact ⟨decide_eq_true (by omega), .inr ⟨busIsWrite_eq_false (by omega),
      congrArg (Raw.bus · 0) (or_ofNat_eq 8 rfl (by omega) (by omega))⟩⟩
  · have hp := posHi_busField3_val t 4
    have hq := busField2_val t 2
    exact ⟨decide_eq_true (by omega), .inr ⟨busIsWrite_eq_false (by omega),
      congrArg (Raw.bus · 0) (or_ofNat_eq 7 rfl (by omega) (by omega))⟩⟩

/-- A register's address, with the register's direction put before it, is an admitted code (R53, R90). -/
theorem admitted_of_regAt {a : Addr} {reg : Reg} (h : regAt a = some reg) :
    Admitted (if regIsWritten reg then 0x1000 + a.toNat else a.toNat) := by
  simp only [regAt] at h
  split_ifs at h <;> cases h <;> simp only [regIsWritten, if_true, Bool.false_eq_true, if_false] <;> omega

/-- A BUS code is its direction and its address (R80). -/
theorem busCode_toNat (t : BusCode) :
    t.toNat = if busIsWrite t then 0x1000 + (busAddr t).toNat else (busAddr t).toNat := by
  have hlt := t.isLt
  simp only [busIsWrite_eq_decide, busAddr_toNat, decide_eq_true_eq]
  split <;> omega

/-- A code of no row goes against the direction of the register at its address, if there is one (R56). -/
theorem direction_of_not_admitted {reg : Reg} (hno : ¬ Admitted t.toNat) (h : regAt (busAddr t) = some reg) :
    busIsWrite t = !regIsWritten reg := by
  rw [Bool.eq_not]
  intro hdir
  apply hno
  rw [busCode_toNat, hdir]
  exact admitted_of_regAt h

end BusRows

theorem instr?_eq_some {x : Decoded} {i : Instr} : x.instr? = some i ↔ x = .instr i := by
  cases x <;> simp [Decoded.instr?]

/-! ### LOADENT (R92) -/

section LoadEnt

/-- The words that LOADENT writes: four bytes each, the first most significant (R57, R92). -/
def packWords : List Byte → List Word
  | a :: b :: c :: d :: rest => packWord a b c d :: packWords rest
  | _ => []

theorem length_lt_four {bytes : List Byte} (h : ∀ a b c d rest, bytes = a :: b :: c :: d :: rest → False) :
    bytes.length < 4 := by
  match bytes, h with
  | [], _ | [_], _ | [_, _], _ | [_, _, _], _ => simp
  | a :: b :: c :: d :: rest, h => exact (h a b c d rest rfl).elim

theorem length_packWords (bytes : List Byte) : (packWords bytes).length = bytes.length / 4 := by
  induction bytes using packWords.induct with
  | case1 a b c d rest ih =>
    simp only [packWords, List.length_cons, ih]
    omega
  | case2 bytes hshort =>
    have hlt := length_lt_four hshort
    simp only [packWords, List.length_nil]
    omega

theorem wordBytes_packWord (a b c d : Byte) : wordBytes (packWord a b c d) = [a, b, c, d] := by
  obtain ⟨ha, hb, hc, hd⟩ := packWord_byte a b c d
  simp [wordBytes, wordByte, ha, hb, hc, hd]

/-- Read in entropy order, the words are the bytes again (R57). -/
theorem flatMap_wordBytes_packWords {bytes : List Byte} (h : 4 ∣ bytes.length) :
    (packWords bytes).flatMap wordBytes = bytes := by
  induction bytes using packWords.induct with
  | case1 a b c d rest ih =>
    simp only [List.length_cons] at h
    simp [packWords, wordBytes_packWord, ih (by omega)]
  | case2 bytes hshort =>
    have hlt := length_lt_four hshort
    obtain rfl : bytes = [] := List.eq_nil_of_length_eq_zero (by omega)
    rfl

/-- From `b` to `b'` the words are stored in ENT[j], ENT[j + 1] and so on and their mask bits set; a lower register, another
mask bit, FATAL and PHASE are as before. -/
structure StoredFrom (j : Nat) (ws : List Word) (b b' : Block) : Prop where
  fatal : b'.fatal = b.fatal
  phase : b'.phase = b.phase
  ent : b'.ent.toList.take (j + ws.length) = b.ent.toList.take j ++ ws
  entv : ∀ i : Fin 8, b'.entv.getLsbD i.val = (b.entv.getLsbD i.val || decide (j ≤ i.val ∧ i.val < j + ws.length))

theorem storedFrom_nil (j : Nat) (b : Block) : StoredFrom j [] b b where
  fatal := rfl
  phase := rfl
  ent := by simp
  entv i := by simp

theorem StoredFrom.cons {j : Fin 8} {w : Word} {ws : List Word} {b b' : Block}
    (h : StoredFrom (j.val + 1) ws (setEntropy j w b) b') : StoredFrom j.val (w :: ws) b b' where
  fatal := h.fatal
  phase := h.phase
  ent := by
    have hj : j.val < (b.ent.toList.set j.val w).length := by simp
    rw [List.length_cons, Nat.add_comm ws.length, ← Nat.add_assoc, h.ent, setEntropy_ent, Vector.toList_set,
      List.take_succ_eq_append_getElem hj, List.getElem_set_self, List.take_set_of_le le_rfl, List.append_assoc]
    rfl
  entv i := by
    rw [h.entv, setEntropy_entv_getLsbD, Bool.or_assoc, ← Bool.decide_or]
    refine congrArg _ (decide_eq_decide.mpr ?_)
    rw [Fin.ext_iff, List.length_cons]
    omega

/-- The transaction of the line `WR ENTj` (R91). -/
theorem decode_hostWrite_ent (j : Fin 8) (w : Word) :
    decode (.bus (1#1 ++ BitVec.ofNat 12 (4 * j.val)) w) = .instr (.wrEnt j w) := by
  have hcode : ∀ j : Fin 8, 1#1 ++ BitVec.ofNat 12 (4 * j.val) = 0x1000#13 ||| BitVec.ofNat 13 (4 * j.val) := by
    decide
  rw [hcode]
  exact Laws.RoundTrip.wrEnt j w rfl

/-- An idle block that is not locked stores the word of the line `WR ENTj` (R100). -/
theorem step_hostWrite_ent {s : State} {j : Fin 8} {w : Word} {rest : List Event} (hf : s.block.fatal = false)
    (hp : s.block.phase = .idle) (he : s.events = hostWrite (BitVec.ofNat 12 (4 * j.val)) w :: rest) :
    ∃ t, step s = .next t ∧ t.events = rest ∧ t.block = setEntropy j w s.block := by
  have hblock : entropyBlock j w s.block = setEntropy j w s.block := by
    simp [entropyBlock, hf, (busy_false_iff _).mpr hp]
  exact ⟨_, (step_host he).trans (runHost_instr (decode_hostWrite_ent j w) _), rfl, hblock⟩

/-- LOADENT stores its words, one a step, by induction on its lines. -/
theorem run_loadEntFrom (bytes : List Byte) : ∀ (j : Nat) (s : State), j + (packWords bytes).length ≤ 8 →
    s.block.fatal = false → s.block.phase = .idle → s.events = loadEntFrom j bytes →
    ∃ t, Sys2Proof.core.run (packWords bytes).length s = .next t ∧ t.events = [] ∧
      StoredFrom j (packWords bytes) s.block t.block := by
  induction bytes using packWords.induct with
  | case1 a b c d rest ih =>
    intro j s hj hf hp he
    simp only [packWords, List.length_cons] at hj ⊢
    obtain ⟨u, hu, hue, hub⟩ := step_hostWrite_ent (j := ⟨j, by omega⟩) hf hp he
    obtain ⟨t, ht, hte, hst⟩ := ih (j + 1) u (by omega) (by rw [hub]; exact hf) (by rw [hub]; exact hp) hue
    rw [hub] at hst
    exact ⟨t, by rw [Nat.add_comm, run_add _ (run_one hu), ht], hte, hst.cons (j := ⟨j, by omega⟩)⟩
  | case2 bytes hshort =>
    intro j s _ _ _ he
    simp only [packWords, loadEntFrom] at he ⊢
    exact ⟨s, rfl, he, storedFrom_nil _ _⟩

/-- A mode's mask has a bit for each register its bytes fill (R6, R24). -/
theorem mask_getLsbD (m : Mode) : ∀ i : Fin 8, m.mask.getLsbD i.val = decide (i.val < m.bytes / 4) := by
  cases m <;> decide

end LoadEnt

/-! ### The obligations -/

/-- Settles O2, by the round trip of each instruction. -/
theorem decodeOfEncodeIsIdentity : Obligations.DecodeOfEncodeIsIdentity := by
  intro i
  cases i with
  | nop => exact Laws.RoundTrip.nop
  | clear => exact Laws.RoundTrip.clear
  | encode n => exact Laws.RoundTrip.encode n
  | encode12 => exact Laws.RoundTrip.encode12
  | encode24 => exact Laws.RoundTrip.encode24
  | entropyFail => exact Laws.RoundTrip.entropyFail
  | wrEnt j w => exact Laws.RoundTrip.wrEnt j w
  | wrCmd w => exact Laws.RoundTrip.wrCmd w
  | rdStatus => exact Laws.RoundTrip.rdStatus
  | rdIdxLo i => exact Laws.RoundTrip.rdIdxLo i
  | rdIdxHi i => exact Laws.RoundTrip.rdIdxHi i
  | rdWordLo i q => exact Laws.RoundTrip.rdWordLo i q
  | rdWordHi i q => exact Laws.RoundTrip.rdWordHi i q

/-- Settles O3, in each format. -/
theorem decodedTransactionIsItsEncoding : Obligations.DecodedTransactionIsItsEncoding := by
  intro r i h
  cases r with
  | cmd w =>
    obtain ⟨hwf, he⟩ := encode_of_rowOfCommand h
    exact ⟨hwf, .inl he⟩
  | bus t d =>
    obtain ⟨hwf, he⟩ := encode_of_decodeBus h
    exact ⟨hwf, he.imp_right fun ⟨hread, hcode⟩ => ⟨t, d, rfl, hread, hcode⟩⟩

/-- Settles O4: each command has one word, and the words of none are those that fail a check. -/
theorem commandWordsAreExactlyTheListedOnes : Obligations.CommandWordsAreExactlyTheListedOnes := by
  intro w
  have hword : ∀ {c v}, wordOfCommand c = some v → (decodeCmd w = c ↔ w = v) := fun {c v} hv => by
    rw [decodeCmd_eq_iff (by rintro rfl; cases hv), hv, Option.some.injEq, eq_comm]
  exact ⟨hword rfl, hword rfl, fun n => hword (congrArg some (cmdWord_encode n)), hword rfl,
    decodeCmd_badCommand_iff⟩

/-- Settles O5, by the interval the code lies in: a row's lies in its register's part of the map, and a code of no row finds
no register or goes against its direction. -/
theorem busRowsCoverExactlyTheRegisterMap : Obligations.BusRowsCoverExactlyTheRegisterMap := by
  intro t w
  refine ⟨countP_busRows t w, ?_⟩
  have ha := busAddr_toNat t
  rcases decodeBus_ranges t w with ⟨hr, hd⟩ | ⟨hr, hd⟩ | ⟨hr, hd⟩ | ⟨hr, hd⟩ | ⟨hr, hd⟩ | ⟨hr, hd⟩ | ⟨hr, hd⟩ |
    ⟨hno, hd⟩
  · have hj := busField3_val t 2
    have hdir : busIsWrite t = true := (busIsWrite_eq_decide t).trans (decide_eq_true (by omega))
    rw [regAt_ent (by omega) (by omega), hdir]
    exact ⟨busField3 t 2, by omega, hd⟩
  · obtain rfl := (eq_iff_alignedIn (v := 0x1020) rfl).mpr hr
    exact hd
  · obtain rfl := (eq_iff_alignedIn (v := 0x0024) rfl).mpr hr
    exact hd
  · have hp := posLo_busField4_val t 2
    rw [regAt_idx (by omega) (by omega) (by omega), busIsWrite_eq_false (by omega)]
    exact ⟨posLo (busField4 t 2), by omega, by rw [hd, if_pos (by omega)]⟩
  · have hp := posHi_busField3_val t 2
    rw [regAt_idx (by omega) (by omega) (by omega), busIsWrite_eq_false (by omega)]
    exact ⟨posHi (busField3 t 2), by omega, by rw [hd, if_neg (by omega)]⟩
  · have hp := posLo_busField4_val t 4
    have hq := busField2_val t 2
    rw [regAt_word (by omega) (by omega) (by omega), busIsWrite_eq_false (by omega)]
    exact ⟨posLo (busField4 t 4), busField2 t 2, by omega, by omega, by rw [hd, if_pos (by omega)]⟩
  · have hp := posHi_busField3_val t 4
    have hq := busField2_val t 2
    rw [regAt_word (by omega) (by omega) (by omega), busIsWrite_eq_false (by omega)]
    exact ⟨posHi (busField3 t 4), busField2 t 2, by omega, by omega, by rw [hd, if_neg (by omega)]⟩
  · cases hreg : regAt (busAddr t) with
    | none => exact ⟨_, hd⟩
    | some reg =>
      rw [direction_of_not_admitted hno hreg] at hd ⊢
      cases reg <;> exact ⟨_, hd⟩

/-- Settles O21: the words stored from register 0 on are the mode's bytes, and their mask bits are the mode's mask. -/
theorem loadentDeliversTheEntropy : Obligations.LoadentDeliversTheEntropy := by
  intro m bytes s hlen hf hp hv he
  have hm : m.bytes / 4 ≤ 8 ∧ 4 ∣ m.bytes := by cases m <;> decide
  obtain ⟨h8, h4⟩ := hm
  have hn : (packWords bytes).length = m.bytes / 4 := by rw [length_packWords, hlen]
  obtain ⟨t, ht, hte, hst⟩ := run_loadEntFrom bytes 0 s (by omega) hf hp he
  rw [hn] at ht
  refine ⟨t, ht, hte, ?_, hst.fatal.trans hf, hst.phase.trans hp, ?_⟩
  · have hent := hst.ent
    rw [hn, Nat.zero_add, List.take_zero, List.nil_append] at hent
    rw [entBytes, hent, flatMap_wordBytes_packWords (hlen ▸ h4)]
  · refine BitVec.eq_of_getLsbD_eq fun i hi => ?_
    have hbit := hst.entv ⟨i, hi⟩
    rw [hn, hv] at hbit
    simpa [← mask_getLsbD m ⟨i, hi⟩] using hbit

/-- Settles O1: the words are evaluated. -/
theorem specWordsDecodeToTheirRows : Obligations.SpecWordsDecodeToTheirRows := by
  unfold Obligations.SpecWordsDecodeToTheirRows
  decide

/-- Settles O7: the placed transaction is the first event, and with it taken off the state is the one before. -/
theorem placedTableWordRunsNext : Obligations.PlacedTableWordRunsNext :=
  fun _ _ _ _ h => (step_host rfl).trans (runHost_instr (instr?_eq_some.mp h) _)

end Sys2Proof.Machine

/-! ## Commands (40_commands.md) -/

namespace Sys2Proof.Machine

/-! ### The limbs as one integer (R131, R138) -/

section Limbs

/-- Dividing an integer whose low limb is `x` by `2 ^ k`: what leaves `a` on the right enters the low limb. -/
theorem limb_append_div_two_pow {k : Nat} (hk : k < 64) (a x : Nat) :
    (a * 2 ^ 64 + x) / 2 ^ k = a / 2 ^ k * 2 ^ 64 + (a % 2 ^ k * 2 ^ (64 - k) + x / 2 ^ k) := by
  have hpow : (2 : Nat) ^ 64 = 2 ^ (64 - k) * 2 ^ k := by rw [← pow_add]; congr 1; omega
  calc (a * 2 ^ 64 + x) / 2 ^ k
      = (x + a * 2 ^ (64 - k) * 2 ^ k) / 2 ^ k := by rw [hpow, ← mul_assoc, add_comm]
    _ = x / 2 ^ k + (2 ^ k * (a / 2 ^ k) + a % 2 ^ k) * 2 ^ (64 - k) := by
      rw [Nat.add_mul_div_right _ _ (by positivity), Nat.div_add_mod]
    _ = a / 2 ^ k * 2 ^ 64 + (a % 2 ^ k * 2 ^ (64 - k) + x / 2 ^ k) := by rw [hpow]; ring

/-- The low bits of an integer are those of its low limb. -/
theorem limb_append_mod_two_pow {k : Nat} (hk : k < 64) (a x : Nat) : (a * 2 ^ 64 + x) % 2 ^ k = x % 2 ^ k := by
  have hdvd : 2 ^ k ∣ a * 2 ^ 64 := (Nat.pow_dvd_pow 2 hk.le).mul_left a
  rw [Nat.add_mod, Nat.mod_eq_zero_of_dvd hdvd, Nat.zero_add, Nat.mod_mod]

/-- The limb shift is a division of the integer the limbs denote (R131, R132). -/
theorem limbVal_shr (m : Mode) {k : Nat} (hk : k < 64) (l : Vector Limb 4) :
    limbVal m (shr m k l) = limbVal m l / 2 ^ k := by
  cases m
  · rw [limbVal_w12, limbVal_w12, limb_append_div_two_pow hk]
    simp [shr, shiftLimb_toNat hk, Nat.shiftRight_eq_div_pow]
  · rw [limbVal_w24, limbVal_w24]
    simp only [limb_append_div_two_pow hk, limb_append_mod_two_pow hk]
    simp [shr, shiftLimb_toNat hk, Nat.shiftRight_eq_div_pow]

variable (m : Mode) (b : Block)

theorem lastStep_limbVal : limbVal m (lastStep m b).l = limbVal m b.l / 2 ^ m.r := by
  cases m
  · exact limbVal_shr .w12 (k := 7) (by decide) b.l
  · exact limbVal_shr .w24 (k := 3) (by decide) b.l

theorem sliceStep_limbVal : limbVal m (sliceStep m b).l = limbVal m b.l / 2 ^ 11 := by
  rw [sliceStep_l, limbVal_shr m (by decide)]

/-- The last index of 12 words as a number: 7 entropy bits over 4 checksum bits (R136). -/
theorem lastIndex12_toNat (l1 : Limb) (c : BitVec 8) :
    (lastIndex12 l1 c).toNat = l1.toNat % 2 ^ 7 * 2 ^ 4 + c.toNat % 2 ^ 4 := by
  have hand : (l1 &&& 0x7F).toNat = l1.toNat % 2 ^ 7 := Nat.and_two_pow_sub_one_eq_mod _ 7
  have hlow : c.toNat % 2 ^ 4 < 2 ^ 4 := Nat.mod_lt _ (by decide)
  rw [mul_comm, Nat.two_pow_add_eq_or_of_lt hlow]
  simp only [lastIndex12, BitVec.toNat_or, BitVec.toNat_setWidth, BitVec.toNat_shiftLeft, hand,
    Nat.shiftLeft_eq]
  congr 1 <;> omega

/-- The last index of 24 words as a number: 3 entropy bits over 8 checksum bits (R137). -/
theorem lastIndex24_toNat (l3 : Limb) (c : BitVec 8) :
    (lastIndex24 l3 c).toNat = l3.toNat % 2 ^ 3 * 2 ^ 8 + c.toNat := by
  have hand : (l3 &&& 0x07).toNat = l3.toNat % 2 ^ 3 := Nat.and_two_pow_sub_one_eq_mod _ 3
  rw [mul_comm, Nat.two_pow_add_eq_or_of_lt c.isLt]
  simp only [lastIndex24, BitVec.toNat_or, BitVec.toNat_setWidth, BitVec.toNat_shiftLeft, hand,
    Nat.shiftLeft_eq]
  congr 1 <;> omega

/-- LAST writes the `r` low bits of the limbs over the latch's `CS` bits (R136, R137). -/
theorem lastStep_idx_last (hc : b.c.toNat < 2 ^ m.cs) {i : Fin 24} (hi : i.val + 1 = m.n) :
    (lastStep m b).idx[i].toNat = limbVal m b.l % 2 ^ m.r * 2 ^ m.cs + b.c.toNat := by
  cases m
  · obtain rfl : i = 11 := Fin.ext (Nat.succ.inj hi)
    have hidx : (lastStep .w12 b).idx[(11 : Fin 24)] = lastIndex12 b.l[1] b.c := Vector.getElem_set_self _
    rw [hidx, lastIndex12_toNat, Nat.mod_eq_of_lt (b := 2 ^ 4) hc, limbVal_w12, limb_append_mod_two_pow (by decide)]
    rfl
  · obtain rfl : i = 23 := Fin.ext (Nat.succ.inj hi)
    have hidx : (lastStep .w24 b).idx[(23 : Fin 24)] = lastIndex24 b.l[3] b.c := Vector.getElem_set_self _
    rw [hidx, lastIndex24_toNat, limbVal_w24, limb_append_mod_two_pow (by decide)]
    rfl

/-- SLICE writes the low 11 bits of the limbs at J and no other index (R138). -/
theorem sliceStep_idx_toNat (i : Fin 24) : (sliceStep m b).idx[i].toNat =
    if i.val = b.j.val then limbVal m b.l % 2 ^ 11 else b.idx[i].toNat := by
  rw [sliceStep_idx, Fin.getElem_fin, Vector.getElem_set]
  by_cases h : b.j.val = i.val
  · rw [if_pos h, if_pos h.symm, BitVec.toNat_setWidth]
    exact lowLimb_mod m b.l
  · rw [if_neg h, if_neg (Ne.symm h)]
    rfl

end Limbs

/-! ### The groups of the combined stream (R58, R141) -/

section Groups

variable (m : Mode) (ent : Vector Word 8)

theorem r_add_cs : m.r + m.cs = 11 := by cases m <;> decide

theorem checksumOf_lt : (checksumOf m ent).toNat < 2 ^ m.cs := chk_toNat_lt m _

/-- Above the checksum the stream is the entropy. -/
theorem stream_div_two_pow (k : Nat) : stream m ent / 2 ^ (m.cs + k) = entropyVal m ent / 2 ^ k := by
  rw [pow_add, ← Nat.div_div_eq_div_mul, stream, mul_comm, Nat.mul_add_div (by positivity),
    Nat.div_eq_of_lt (checksumOf_lt m ent), Nat.add_zero]

/-- The last group: the `r` low entropy bits over the checksum (R141). -/
theorem group_last {i : Nat} (hi : i + 1 = m.n) : group m (stream m ent) i =
    entropyVal m ent % 2 ^ m.r * 2 ^ m.cs + (checksumOf m ent).toNat := by
  have hpow : 2 ^ 11 = 2 ^ m.cs * 2 ^ m.r := by rw [← pow_add, add_comm, r_add_cs]
  have hmod : stream m ent % 2 ^ m.cs = (checksumOf m ent).toNat := by
    rw [stream, Nat.mul_add_mod_self_right, Nat.mod_eq_of_lt (checksumOf_lt m ent)]
  have hdiv : stream m ent / 2 ^ m.cs = entropyVal m ent := by simpa using stream_div_two_pow m ent 0
  rw [group, show m.n - 1 - i = 0 by omega, Nat.mul_zero, pow_zero, Nat.div_one, hpow, Nat.mod_mul, hmod, hdiv]
  ring

/-- The groups before the last are entropy bits only (R141). -/
theorem group_of_lt {i : Nat} (hi : i + 2 ≤ m.n) : group m (stream m ent) i =
    entropyVal m ent / 2 ^ (m.r + 11 * (m.n - 2 - i)) % 2 ^ 11 := by
  have hr := r_add_cs m
  rw [group, show 11 * (m.n - 1 - i) = m.cs + (m.r + 11 * (m.n - 2 - i)) by omega, stream_div_two_pow]

end Groups

/-! ### A running encoding keeps to its layout (R112, R141) -/

section Tracks

variable {b : Block} {m : Mode}

theorem inMode_unique {m' : Mode} (hm : inMode b m) (hm' : inMode b m') : m = m' :=
  Option.some.inj (hm.symm.trans hm')

/-- The layout is not about ERR. -/
theorem Block.Tracks.reject (h : b.Tracks m) (e : ErrCode) : (reject e b).Tracks m :=
  ⟨h.loaded, h.summed, h.sliced, h.finished⟩

theorem loadStep_tracks (m : Mode) (b : Block) : (loadStep m b).Tracks m where
  loaded _ := loadedLimbsDenoteTheEntropy m b.ent
  summed h := absurd h (by simp)
  sliced h := absurd h (by simp)
  finished h := absurd h (by simp)

theorem Block.Tracks.checksumStep (h : b.Tracks m) (hp : b.phase = .checksum) : (checksumStep m b).Tracks m where
  loaded _ := h.loaded (.inl hp)
  summed _ := rfl
  sliced h := absurd h (by simp)
  finished h := absurd h (by simp)

/-- In SLICE the limbs and the written indices are all there is to track. -/
theorem Block.tracks_of_slice (hp : b.phase = .slice)
    (hl : limbVal m b.l = entropyVal m b.ent / 2 ^ (m.r + 11 * (m.n - 2 - b.j.val)))
    (hidx : ∀ i : Fin 24, b.j.val < i.val → i.val < m.n → b.idx[i].toNat = group m (stream m b.ent) i.val) :
    b.Tracks m where
  loaded h := absurd h (by simp [hp])
  summed h := absurd h (by simp [hp])
  sliced _ := ⟨hl, hidx⟩
  finished h := absurd h (by simp [hp])

/-- Before COMPLETE it is the indices alone. -/
theorem Block.tracks_of_complete (hp : b.phase = .complete)
    (hidx : ∀ i : Fin 24, i.val < m.n → b.idx[i].toNat = group m (stream m b.ent) i.val) : b.Tracks m where
  loaded h := absurd h (by simp [hp])
  summed h := absurd h (by simp [hp])
  sliced h := absurd h (by simp [hp])
  finished _ := hidx

theorem Block.Tracks.lastStep (h : b.Tracks m) (hp : b.phase = .last) : (lastStep m b).Tracks m := by
  have hj := lastStep_j b m
  have hl := h.loaded (.inr hp)
  have hc := h.summed hp
  refine Block.tracks_of_slice (lastStep_phase b m) ?_ fun i hlo hhi => ?_
  · rw [lastStep_limbVal, lastStep_ent, hl, show m.n - 2 - (Machine.lastStep m b).j.val = 0 by omega]
    rfl
  · have hi : i.val + 1 = m.n := by omega
    rw [lastStep_ent, lastStep_idx_last m b (hc ▸ checksumOf_lt m b.ent) hi, group_last m b.ent hi, hl, hc]

/-- A SLICE on its track writes its group, and the groups above it stand already (R138). -/
theorem Block.Tracks.sliceStep_idx (h : b.Tracks m) (hp : b.phase = .slice) (hj : b.j.val + 2 ≤ m.n) {i : Fin 24}
    (hlo : b.j.val ≤ i.val) (hhi : i.val < m.n) :
    (Machine.sliceStep m b).idx[i].toNat = group m (stream m b.ent) i.val := by
  obtain ⟨hl, habove⟩ := h.sliced hp
  rw [sliceStep_idx_toNat]
  split
  · next heq => rw [hl, heq, group_of_lt m b.ent hj]
  · next hne => exact habove i (by omega) hhi

theorem Block.Tracks.sliceStep (h : b.Tracks m) (hp : b.phase = .slice) (hj : b.j.val + 2 ≤ m.n) :
    (sliceStep m b).Tracks m := by
  have hidx := @Block.Tracks.sliceStep_idx b m h hp hj
  obtain ⟨hl, -⟩ := h.sliced hp
  by_cases h0 : b.j = 0
  · have hphase : (Machine.sliceStep m b).phase = .complete := by simp [h0]
    refine Block.tracks_of_complete hphase fun i hi => ?_
    rw [sliceStep_ent]
    exact hidx (by simp [h0]) hi
  · have hphase : (Machine.sliceStep m b).phase = .slice := by simp [h0, hp]
    have hne : b.j.val ≠ 0 := fun h => h0 (Fin.ext h)
    have hpred : (Machine.sliceStep m b).j.val = b.j.val - 1 := by rw [sliceStep_j, if_neg h0]; rfl
    refine Block.tracks_of_slice hphase ?_ fun i hlo hhi => ?_
    · rw [sliceStep_limbVal, hl, Nat.div_div_eq_div_mul, ← pow_add, sliceStep_ent, hpred]
      congr 2
      omega
    · rw [sliceStep_ent]
      exact hidx (by omega) hhi

/-- The block `b'` runs on with the encoding of `b`, in its mode, with its entropy, and on its track. -/
def Block.RunsOnTrack (m : Mode) (b b' : Block) : Prop :=
  b'.phase ≠ .idle ∧ b'.ent = b.ent ∧ inMode b' m ∧ b'.Tracks m

theorem Block.Tracks.runsOnTrack_reject (h : b.Tracks m) (hp : b.phase ≠ .idle) (hm : inMode b m) (e : ErrCode) :
    b.RunsOnTrack m (Machine.reject e b) := ⟨hp, rfl, hm, h.reject e⟩

/-- A micro-step keeps a running encoding on its track, unless it is COMPLETE. -/
theorem Block.Tracks.microStep (h : b.Tracks m) (hi : b.Inv) (hp : b.phase ≠ .idle) (hm : inMode b m) {b' : Block}
    (hs : microStep b = some b') : b.RunsOnTrack m b' ∨ (b.phase = .complete ∧ b' = completeStep b) := by
  have hmode {b' : Block} (hn : b'.nwords = b.nwords) : inMode b' m := by rwa [inMode, hn]
  rcases microStep_cases hs with
    ⟨hidle, -⟩ | ⟨m', hm', hphase, rfl⟩ | ⟨m', hm', hphase, rfl⟩ | ⟨m', hm', hphase, rfl⟩ |
    ⟨m', hm', hphase, rfl⟩ | hc
  · exact absurd hidle hp
  · obtain rfl := inMode_unique hm hm'
    exact .inl ⟨by simp, by simp, hmode rfl, loadStep_tracks m b⟩
  · obtain rfl := inMode_unique hm hm'
    exact .inl ⟨by simp, by simp, hmode rfl, h.checksumStep hphase⟩
  · obtain rfl := inMode_unique hm hm'
    exact .inl ⟨by simp, by simp, hmode (by simp), h.lastStep hphase⟩
  · obtain rfl := inMode_unique hm hm'
    have hj : b.j.val + 2 ≤ m.n := nwords_toNat_of_inMode hm ▸ hi.jInSlice hphase
    refine .inl ⟨?_, by simp, hmode (by simp), h.sliceStep hphase hj⟩
    rw [sliceStep_phase]
    split <;> simp [hphase]
  · exact .inr hc

end Tracks

/-! ### ENCODE and the entropy write, one equation per branch (R100, R104) -/

section Branches

variable {b : Block} {n : BitVec 8} {m : Mode} {j : Fin 8} {w : Word}

theorem encodeBlock_of_fatal (hf : b.fatal = true) : encodeBlock n b = reject .fatalLocked b := if_pos hf

theorem encodeBlock_of_busy (hf : b.fatal = false) (hp : b.phase ≠ .idle) : encodeBlock n b = reject .busy b := by
  simp [encodeBlock, hf, (busy_iff b).mpr hp]

theorem encodeBlock_of_noMode (hf : b.fatal = false) (hp : b.phase = .idle) (hn : Mode.ofWords n = none) :
    encodeBlock n b = clearOutput (reject .invalidConfig b) := by
  simp [encodeBlock, hf, (busy_false_iff b).mpr hp, hn]

theorem encodeBlock_of_wrongMask (hf : b.fatal = false) (hp : b.phase = .idle) (hv : b.entv ≠ m.mask) :
    encodeBlock m.words b = clearOutput (reject .entropyLength b) := by
  simp [encodeBlock, hf, (busy_false_iff b).mpr hp, hv]

theorem encodeBlock_of_readyFor (h : readyFor b m) : encodeBlock m.words b = accept m b := by
  obtain ⟨hf, hp, hv⟩ := h
  simp [encodeBlock, hf, (busy_false_iff b).mpr hp, hv]

theorem entropyBlock_of_fatal (hf : b.fatal = true) : entropyBlock j w b = reject .fatalLocked b := if_pos hf

theorem entropyBlock_of_busy (hf : b.fatal = false) (hp : b.phase ≠ .idle) : entropyBlock j w b = reject .busy b := by
  simp [entropyBlock, hf, (busy_iff b).mpr hp]

theorem entropyBlock_of_idle (hf : b.fatal = false) (hp : b.phase = .idle) :
    entropyBlock j w b = setEntropy j w b := by
  simp [entropyBlock, hf, (busy_false_iff b).mpr hp]

/-- Stores to two registers commute (R100). -/
theorem setEntropy_comm {i j : Fin 8} (hij : i ≠ j) (v w : Word) (b : Block) :
    setEntropy j w (setEntropy i v b) = setEntropy i v (setEntropy j w b) := by
  have hent := Vector.set_comm v w (xs := b.ent) (hi := i.isLt) (hj := j.isLt) (Fin.val_ne_of_ne hij)
  have hentv : b.entv ||| 1#8 <<< i.val ||| 1#8 <<< j.val = b.entv ||| 1#8 <<< j.val ||| 1#8 <<< i.val := by
    rw [BitVec.or_assoc, BitVec.or_comm (1#8 <<< i.val), BitVec.or_assoc]
  simp only [setEntropy, hent, hentv]

end Branches

/-! ### A busy block and the host (R112, R207) -/

section Busy

variable {b : Block}

/-- Busy, the block rejects an entropy write. -/
theorem entropyBlock_rejects (hp : b.phase ≠ .idle) (j : Fin 8) (w : Word) : ∃ e, entropyBlock j w b = reject e b := by
  cases hf : b.fatal
  · exact ⟨_, entropyBlock_of_busy hf hp⟩
  · exact ⟨_, entropyBlock_of_fatal hf⟩

/-- Busy, the block rejects an ENCODE. -/
theorem encodeBlock_rejects (hp : b.phase ≠ .idle) (n : BitVec 8) : ∃ e, encodeBlock n b = reject e b := by
  cases hf : b.fatal
  · exact ⟨_, encodeBlock_of_busy hf hp⟩
  · exact ⟨_, encodeBlock_of_fatal hf⟩

/-- Busy, the block lets a command that does not abort change ERR only. -/
theorem runCommand_changes_err_only (hp : b.phase ≠ .idle) {c : Command} (hclear : c ≠ .clear) (hfail : c ≠ .entropyFail) :
    ∃ e, runCommand c b = reject e b := by
  cases c with
  | nop => exact ⟨b.err, rfl⟩
  | clear => exact absurd rfl hclear
  | encode n => exact encodeBlock_rejects hp n
  | entropyFail => exact absurd rfl hfail
  | badCommand => exact ⟨_, rfl⟩

/-- Busy, the block lets a host transaction that does not abort change ERR only. -/
theorem runHost_changes_err_only {s : State} {r : Raw} (hp : s.block.phase ≠ .idle) (hno : ¬ aborts (.host r)) :
    ∃ t, runHost r s = .next t ∧ ∃ e, t.block = reject e s.block := by
  obtain ⟨t, ht, -, -, ⟨c, hc, hb⟩ | ⟨-, j, w, -, hb⟩ | ⟨-, hb⟩⟩ := runHost_cases r s
  · have hcmd := runCommand_changes_err_only hp (c := c) (fun h => hno (.inl (h ▸ hc))) (fun h => hno (.inr (h ▸ hc)))
    exact ⟨t, ht, hb ▸ hcmd⟩
  · exact ⟨t, ht, hb ▸ entropyBlock_rejects hp j w⟩
  · exact ⟨t, ht, s.block.err, hb⟩

end Busy

/-! ### The reads (R109 to R111) -/

section Reads

variable {b : Block} {p : Fin 24}

/-- No row of a read uses the data word (R51). -/
theorem decodeBus_data_irrel {t : BusCode} (ht : t.toNat < 0x1000) (d d' : Word) : decodeBus t d = decodeBus t d' := by
  have hent : ¬ busRow t 0x1000 0x1FE3 = true := by rw [wrEntRow_iff]; omega
  have hcmd : ¬ busRow t 0x1020 0x1FFF = true := by rw [wrCmdRow_iff]; omega
  simp only [decodeBus, if_neg hent, if_neg hcmd]

/-- STATUS field by field (R32). -/
theorem statusWord_flags (b : Block) : fieldBusy (statusWord b) = busy b ∧ fieldDone (statusWord b) = b.done ∧
    fieldFatal (statusWord b) = b.fatal ∧ (statusWord b).getLsbD 3 = false := by
  simp only [fieldBusy, fieldDone, fieldFatal, statusWord, BitVec.getLsbD_append]
  simp

theorem statusWord_fields (b : Block) : fieldErr (statusWord b) = errBits b.err ∧
    fieldNwords (statusWord b) = b.nwords ∧ fieldEntv (statusWord b) = b.entv ∧
    (statusWord b).extractLsb' 24 8 = 0 := by
  simp (disch := decide) only [fieldErr, fieldNwords, fieldEntv, statusWord, BitVec.extractLsb'_append_eq_of_le,
    BitVec.extractLsb'_append_eq_of_add_le, BitVec.extractLsb'_eq_self, Nat.reduceSub, true_and]
  rfl

theorem readOutput_of_valid (hd : b.done = true) (hp : p.val < b.nwords.toNat) (d : Word) :
    readOutput b p d = readOkay d := by
  simp [readOutput, readable, hd, hp]

theorem readOutput_of_not_valid (h : b.done = false ∨ b.nwords.toNat ≤ p.val) (d : Word) :
    readOutput b p d = readBusErr := by
  rcases h with h | h
  · simp [readOutput, readable, h]
  · simp [readOutput, readable, Nat.not_lt.mpr h]

/-- The two rows of RD_IDX do the same (R110). -/
theorem exec_rdIdx {i : Instr} (hi : i = .rdIdxLo p ∨ i = .rdIdxHi p) (s : State) :
    exec i s = .next (s.respond (readOutput s.block p (idxWord s.block p))) := by
  rcases hi with rfl | rfl <;> rfl

/-- The two rows of RD_WORD do the same (R111). -/
theorem exec_rdWord {i : Instr} {q : Fin 4} (hi : i = .rdWordLo p q ∨ i = .rdWordHi p q) (s : State) :
    exec i s = .next (s.respond (readOutput s.block p (wordWord s.block p q))) := by
  rcases hi with rfl | rfl <;> rfl

/-- Byte `k` of a window is byte `4q + k` of its slot (R174). -/
theorem window_byte (slot : Slot) (q k : Fin 4) :
    (window slot q).extractLsb' (24 - 8 * k.val) 8 = slot[4 * q.val + k.val]'(by omega) := by
  obtain ⟨h0, h1, h2, h3⟩ := packWord_byte (slot[4 * q.val]'(by omega)) (slot[4 * q.val + 1]'(by omega))
    (slot[4 * q.val + 2]'(by omega)) (slot[4 * q.val + 3]'(by omega))
  match k with
  | 0 => exact h0
  | 1 => exact h1
  | 2 => exact h2
  | 3 => exact h3

end Reads

/-- Only an illegal word decodes to BAD_COMMAND (R85). -/
theorem decodeCmd_of_decode_badCommand {w : Word} (h : decode (.cmd w) = .badCommand) :
    decodeCmd w = .badCommand := by
  rcases rowOfCommand_cases (decodeCmd w) with ⟨i, hi⟩ | ⟨hc, -⟩
  · exact absurd (hi.symm.trans h) (by simp)
  · exact hc

/-- WR_CMD of an illegal word (R108). -/
theorem exec_wrCmd_badCommand {w : Word} (h : decodeCmd w = .badCommand) (s : State) :
    exec (.wrCmd w) s = finishWrite (reject .badCommand s.block) s := by
  change finishWrite (runCommand (decodeCmd w) s.block) s = _
  rw [h]
  rfl

/-! ### The obligations -/

/-- Settles O36, by the kinds of step: a micro-step keeps the encoding on its track or is COMPLETE, and a host
transaction that does not abort it changes ERR only. -/
theorem everyInterleavingKeepsTheBitLayout : Obligations.EveryInterleavingKeepsTheBitLayout := by
  intro s t m hi hp hm h hno hs
  rcases (step_cases hs).2 with ⟨-, hmicro, -⟩ | ⟨r, hr, hrun⟩ | ⟨hr, -, -⟩
  · rcases h.microStep hi hp hm hmicro with hon | ⟨hc, hb⟩
    · exact .inl hon
    · rw [hb]
      exact .inr ⟨rfl, rfl, hm, h.finished hc⟩
  · obtain ⟨t', ht', e, he⟩ := runHost_changes_err_only (s := s.setEvents s.events.tail) hp (hno _ hr)
    obtain rfl : t' = t := by rw [ht'] at hrun; cases hrun; rfl
    rw [he]
    exact .inl (h.runsOnTrack_reject hp hm e)
  · exact absurd trivial (hno _ hr)

/-- Settles O9: in both formats the word's command runs, and a word that is a row runs as its row. -/
theorem commandWriteRunsItsCommand : Obligations.CommandWriteRunsItsCommand := by
  intro s w rest
  refine ⟨rfl, ?_, fun i hi => (exec_rowOfCommand hi s).symm, fun hbad => ?_, _, rfl, rfl, rfl⟩
  · rw [step_host rfl, step_host rfl, runHost_cmd]
    rfl
  · exact exec_wrCmd_badCommand (decodeCmd_of_decode_badCommand hbad) s

/-- Settles O16, branch by branch. -/
theorem encodeChecksThenStarts : Obligations.EncodeChecksThenStarts := by
  refine ⟨fun n => cmdWord_encode n ▸ decodeCmd_encodeWord n, fun n s => ?_⟩
  have hexec {b : Block} (h : encodeBlock n s.block = b) : exec (.encode n) s = finishWrite b s :=
    congrArg (finishWrite · s) h
  refine ⟨fun hf => hexec (encodeBlock_of_fatal hf), fun hf hp => hexec (encodeBlock_of_busy hf hp), fun hf hp =>
    ⟨fun h12 h24 => hexec (encodeBlock_of_noMode hf hp ((if_neg h12).trans (if_neg h24))), ?_, ?_, ?_⟩⟩
  · rintro rfl hv
    exact hexec (encodeBlock_of_wrongMask (m := .w12) hf hp hv)
  · rintro rfl hv
    exact hexec (encodeBlock_of_wrongMask (m := .w24) hf hp hv)
  · rintro (⟨rfl, hv⟩ | ⟨rfl, hv⟩)
    · exact hexec (encodeBlock_of_readyFor (m := .w12) ⟨hf, hp, hv⟩)
    · exact hexec (encodeBlock_of_readyFor (m := .w24) ⟨hf, hp, hv⟩)

/-- Settles O19, branch by branch. -/
theorem entropyWriteStoresOrRejects : Obligations.EntropyWriteStoresOrRejects := by
  intro j w s
  have hexec {b : Block} (h : entropyBlock j w s.block = b) : exec (.wrEnt j w) s = finishWrite b s :=
    congrArg (finishWrite · s) h
  refine ⟨Laws.RoundTrip.wrEnt j w rfl, fun hf => hexec (entropyBlock_of_fatal hf),
    fun hf hp => hexec (entropyBlock_of_busy hf hp), fun hf hp => ⟨(setEntropy j w s.block).ent,
      (setEntropy j w s.block).entv, hexec (entropyBlock_of_idle hf hp), fun k => setEntropy_ent_getElem s.block j k w,
      fun k => ?_⟩⟩
  rw [setEntropy_entv_getLsbD, Bool.or_comm]
  rfl

/-- Settles O20: a locked and a busy block reject both writes alike, and two stores commute. -/
theorem entropyWriteOrderDoesNotMatter : Obligations.EntropyWriteOrderDoesNotMatter := by
  intro b i j v w hij
  cases hf : b.fatal
  · by_cases hp : b.phase = .idle
    · simp only [entropyBlock_of_idle hf hp, entropyBlock_of_idle (b := setEntropy i v b) hf hp,
        entropyBlock_of_idle (b := setEntropy j w b) hf hp, setEntropy_comm hij]
    · simp only [entropyBlock_of_busy hf hp, entropyBlock_of_busy (b := reject .busy b) hf hp]
  · simp only [entropyBlock_of_fatal hf, entropyBlock_of_fatal (b := reject .fatalLocked b) hf]

/-- Settles O22, by the fields of STATUS. -/
theorem statusReadShowsEveryField : Obligations.StatusReadShowsEveryField := by
  refine ⟨fun w => decodeBus_data_irrel (by decide) w 0, fun s => ⟨statusWord s.block, rfl, ?_⟩⟩
  obtain ⟨hbusy, hdone, hfatal, hzero⟩ := statusWord_flags s.block
  exact ⟨by rw [hbusy, busy_iff], hdone, hfatal, hzero, statusWord_fields s.block⟩

/-- Settles O23: the codes by evaluation, the answer by the two ends of an output read. -/
theorem indexReadAnswersOnlyValidOutput : Obligations.IndexReadAnswersOnlyValidOutput := by
  have hcode : ∀ p : Fin 24, (BitVec.ofNat 13 (0x0040 + 4 * p.val)).toNat < 0x1000 ∧
      decodeBus (BitVec.ofNat 13 (0x0040 + 4 * p.val)) 0 =
        .instr (if p.val < 16 then .rdIdxLo p else .rdIdxHi p) := by decide
  refine ⟨fun p w => (decodeBus_data_irrel (hcode p).1 w 0).trans (hcode p).2, fun s p i hi => ?_⟩
  rw [exec_rdIdx hi]
  refine ⟨fun hd hp => ?_, fun h => ?_⟩
  · rw [readOutput_of_valid hd hp, idxWord, BitVec.setWidth_eq_append (by decide)]
    rfl
  · rw [readOutput_of_not_valid h]
    rfl

/-- Settles O24: the codes by evaluation, the answer by the two ends of an output read and the bytes of a window. -/
theorem wordReadAnswersTheSlotWindow : Obligations.WordReadAnswersTheSlotWindow := by
  have hcode : ∀ (p : Fin 24) (q : Fin 4), (BitVec.ofNat 13 (0x0100 + 16 * p.val + 4 * q.val)).toNat < 0x1000 ∧
      decodeBus (BitVec.ofNat 13 (0x0100 + 16 * p.val + 4 * q.val)) 0 =
        .instr (if p.val < 16 then .rdWordLo p q else .rdWordHi p q) := by decide
  refine ⟨fun p q w => (decodeBus_data_irrel (hcode p q).1 w 0).trans (hcode p q).2, fun s p q i hi => ?_⟩
  rw [exec_rdWord hi]
  refine ⟨fun hd hp => ⟨wordWord s.block p q, ?_, fun k => window_byte _ q k⟩, fun h => ?_⟩
  · rw [readOutput_of_valid hd hp]
    rfl
  · rw [readOutput_of_not_valid h]
    rfl

/-- Settles O46: of a busy block, what does not abort it changes ERR only. -/
theorem hostCannotDisturbARunningEncoding : Obligations.HostCannotDisturbARunningEncoding := by
  intro s r hp hno
  obtain ⟨t, ht, e, he⟩ := runHost_changes_err_only hp hno
  exact ⟨t, ht, by rw [he]; rfl⟩

/-- Settles O13: NOP's next state is written out in its meaning. -/
theorem nopChangesNothing : Obligations.NopChangesNothing := ⟨by decide, fun _ => rfl⟩

/-- Settles O14: CLEAR's next state is written out in its meaning. -/
theorem clearZeroesAllButFatal : Obligations.ClearZeroesAllButFatal := ⟨by decide, fun _ => rfl⟩

/-- Settles O15: ENTROPY_FAIL's next state is written out in its meaning. -/
theorem entropyFailScrubsAndLocks : Obligations.EntropyFailScrubsAndLocks := ⟨by decide, fun _ => rfl⟩

/-- Settles O17: a ready block accepts its mode, and the exact rows are ENCODE with their word count. -/
theorem exactEncodeRowsStartTheirMode : Obligations.ExactEncodeRowsStartTheirMode := by
  refine fun s => ⟨fun hf hp hv => ?_, fun hf hp hv => ?_, rfl, rfl⟩
  · exact congrArg (finishWrite · s) (encodeBlock_of_readyFor (m := .w12) ⟨hf, hp, hv⟩)
  · exact congrArg (finishWrite · s) (encodeBlock_of_readyFor (m := .w24) ⟨hf, hp, hv⟩)

/-- Settles O18, in each format. -/
theorem illegalCommandOnlySetsErr : Obligations.IllegalCommandOnlySetsErr := by
  intro s w rest hbad
  refine ⟨exec_wrCmd_badCommand hbad s, ?_⟩
  rw [step_host rfl, runHost_cmd, hbad]
  rfl

end Sys2Proof.Machine

/-! ## The encoder datapath (41_encoder_datapath.md) -/

namespace Sys2Proof.Machine

/-! ### The values the datapath holds -/

section Values

variable (m : Mode)

/-- The limbs in use hold the mode's entropy bits (R6, R29). -/
theorem limbVal_lt (l : Vector Limb 4) : limbVal m l < 2 ^ m.ent := by
  have h0 := l[0].isLt
  have h1 := l[1].isLt
  cases m
  · rw [limbVal_w12, show Mode.w12.ent = 128 by decide]
    omega
  · have h2 := l[2].isLt
    have h3 := l[3].isLt
    rw [limbVal_w24, show Mode.w24.ent = 256 by decide]
    omega

theorem entropyVal_lt (ent : Vector Word 8) : entropyVal m ent < 2 ^ m.ent :=
  loadedLimbsDenoteTheEntropy m ent ▸ limbVal_lt m (loadLimbs m ent)

/-- The stream fills the `n` groups (R7). -/
theorem stream_lt (ent : Vector Word 8) : stream m ent < 2 ^ (11 * m.n) := by
  have he := entropyVal_lt m ent
  have hc := checksumOf_lt m ent
  calc stream m ent < (entropyVal m ent + 1) * 2 ^ m.cs := by rw [stream]; linarith
    _ ≤ 2 ^ m.ent * 2 ^ m.cs := Nat.mul_le_mul_right _ he
    _ = 2 ^ (11 * m.n) := by rw [← pow_add, ent_add_cs]

variable {m}

/-- The stream is a function of the mode's entropy bytes (R144). -/
theorem stream_congr {ent ent' : Vector Word 8} (h : entBytes m ent = entBytes m ent') :
    stream m ent = stream m ent' := by
  simp only [stream, entropyVal, checksumOf, hashByte, h]

variable (m)

/-- The stream is the entropy over its checksum (R145). -/
theorem stream_div_cs (ent : Vector Word 8) : stream m ent / 2 ^ m.cs = entropyVal m ent := by
  simpa using stream_div_two_pow m ent 0

theorem stream_mod_cs (ent : Vector Word 8) : stream m ent % 2 ^ m.cs = (checksumOf m ent).toNat := by
  rw [stream, Nat.mul_add_mod_self_right, Nat.mod_eq_of_lt (checksumOf_lt m ent)]

/-- The first group: the 11 high entropy bits (R143). -/
theorem group_first (ent : Vector Word 8) : group m (stream m ent) 0 = entropyVal m ent / 2 ^ (m.ent - 11) := by
  have hbits : m.ent = m.r + 11 * (m.n - 2 - 0) + 11 := by cases m <;> decide
  have hlt : entropyVal m ent / 2 ^ (m.ent - 11) < 2 ^ 11 := by
    rw [Nat.div_lt_iff_lt_mul (by positivity), ← pow_add, show 11 + (m.ent - 11) = m.ent by omega]
    exact entropyVal_lt m ent
  rw [group_of_lt m ent (by cases m <;> decide), show m.r + 11 * (m.n - 2 - 0) = m.ent - 11 by omega,
    Nat.mod_eq_of_lt hlt]

/-- A group's bits are the stream's (R141). -/
theorem group_testBit (S i : Nat) {q : Nat} (hq : q < 11) :
    (group m S i).testBit q = S.testBit (11 * (m.n - 1 - i) + q) := by
  rw [group, Nat.testBit_mod_two_pow, Nat.testBit_div_two_pow, decide_eq_true hq, Bool.true_and, add_comm]

/-- An entropy bit stands in the stream `CS` positions further up (R148). -/
theorem stream_testBit_cs_add (ent : Vector Word 8) (bit : Nat) :
    (stream m ent).testBit (bit + m.cs) = (entropyVal m ent).testBit bit := by
  rw [← Nat.testBit_div_two_pow, stream_div_cs]

variable {m}

/-- The first `n` indices are the groups of the stream of the entropy `ent` (R141). -/
def Block.HoldsGroups (m : Mode) (ent : Vector Word 8) (b : Block) : Prop :=
  ∀ i : Fin 24, i.val < m.n → b.idx[i].toNat = group m (stream m ent) i.val

/-- The indices of a stream's groups spell the stream group by group, the first one most significant (R145). -/
theorem Block.HoldsGroups.foldl_take {ent : Vector Word 8} {b : Block} (h : b.HoldsGroups m ent) {j : Nat}
    (hj : j ≤ m.n) : ((b.idx.toList.take j).map BitVec.toNat).foldl (fun acc x => acc * 2 ^ 11 + x) 0 =
      stream m ent / 2 ^ (11 * (m.n - j)) := by
  induction j with
  | zero => simp [Nat.div_eq_of_lt (stream_lt m ent)]
  | succ j ih =>
    have hlen : j < b.idx.toList.length := by simpa using lt_of_lt_of_le hj (words_lt m)
    have hgroup : b.idx.toList[j].toNat = stream m ent / 2 ^ (11 * (m.n - (j + 1))) % 2 ^ 11 := by
      have hidx := h ⟨j, lt_of_lt_of_le hj (words_lt m)⟩ hj
      rw [group, show m.n - 1 - j = m.n - (j + 1) by omega] at hidx
      simpa using hidx
    rw [List.take_succ_eq_append_getElem hlen, List.map_append, List.foldl_append, ih (Nat.le_of_succ_le hj),
      show 11 * (m.n - j) = 11 * (m.n - (j + 1)) + 11 by omega, pow_add, ← Nat.div_div_eq_div_mul]
    simp only [List.map_cons, List.map_nil, List.foldl_cons, List.foldl_nil, hgroup]
    exact Nat.div_add_mod' _ _

theorem Block.HoldsGroups.recombine_idx {ent : Vector Word 8} {b : Block} (h : b.HoldsGroups m ent) :
    recombine m b.idx = stream m ent := by
  simpa [recombine] using h.foldl_take le_rfl

end Values

/-! ### The micro-steps of a running encoding (R130) -/

section MicroSteps

variable {b b' : Block} {m : Mode}

/-- With the invariants the sequencer always has its step (R38 item 2). -/
theorem Block.Inv.microStep_isSome (hi : b.Inv) : ∃ b', Machine.microStep b = some b' := by
  by_cases hp : b.phase = .idle
  · exact ⟨b, by simp only [Machine.microStep, hp]⟩
  · obtain ⟨hn | hn, -⟩ := hi.busyMode hp
    · exact Machine.microStep_isSome (m := .w12) (inMode_iff.mpr hn)
    · exact Machine.microStep_isSome (m := .w24) (inMode_iff.mpr hn)

/-- Between acceptance and COMPLETE a micro-step lets the encoding run on. -/
theorem microStep_runsOn (h : microStep b = some b') (hp : b.phase ≠ .idle) (hc : b.phase ≠ .complete) :
    b.RunsOn b' := by
  rcases microStep_cases h with
    ⟨hidle, -⟩ | ⟨m, -, -, rfl⟩ | ⟨m, -, -, rfl⟩ | ⟨m, -, -, rfl⟩ | ⟨m, -, -, rfl⟩ | ⟨hcomplete, -⟩
  · exact absurd hidle hp
  · exact ⟨hp, by simp, rfl, rfl, rfl, rfl, rfl⟩
  · exact ⟨hp, by simp, rfl, rfl, rfl, rfl, rfl⟩
  · exact ⟨hp, by simp, by simp, by simp, by simp, by simp, by simp⟩
  · refine ⟨hp, ?_, by simp, by simp, by simp, by simp, by simp⟩
    rw [sliceStep_phase]
    split <;> simp [hp]
  · exact absurd hcomplete hc

/-- SLICE changes nothing but the indices, the limbs, J and PHASE (R138). -/
theorem sliceStep_frame (m : Mode) (b : Block) : sliceStep m b =
    { b with
      idx := (sliceStep m b).idx, l := shr m 11 b.l, j := (sliceStep m b).j, phase := (sliceStep m b).phase } := by
  unfold sliceStep
  split <;> rfl

/-- SLICE at J = 0 is the last one (R138). -/
theorem sliceStep_at_zero (h0 : b.j.val = 0) : (sliceStep m b).phase = .complete ∧ (sliceStep m b).j = b.j := by
  simp [show b.j = 0 from Fin.ext h0]

/-- SLICE at any other J counts down (R138). -/
theorem sliceStep_counts_down (hp : b.phase = .slice) (h0 : b.j.val ≠ 0) :
    (sliceStep m b).phase = .slice ∧ (sliceStep m b).j.val + 1 = b.j.val := by
  have hne : b.j ≠ 0 := fun h => h0 (congrArg Fin.val h)
  rw [sliceStep_phase, sliceStep_j, if_neg hne, if_neg hne]
  exact ⟨hp, Nat.sub_add_cancel (Nat.pos_of_ne_zero h0)⟩

end MicroSteps

/-! ### The remaining bits (R142) -/

section RemainingBits

variable {b : Block} {m : Mode}

/-- Outside SLICE and COMPLETE the bound asks nothing. -/
theorem Block.remaining_of_phase (hs : b.phase ≠ .slice) (hc : b.phase ≠ .complete) : b.Remaining :=
  fun _ _ => ⟨fun h => absurd h hs, fun h => absurd h hc⟩

/-- In a mode it is the bound for that mode. -/
theorem Block.remaining_of_inMode (hm : inMode b m)
    (h : (b.phase = .slice → limbVal m b.l < 2 ^ (11 * (b.j.val + 1))) ∧ (b.phase = .complete → b.l = zeroLimbs)) :
    b.Remaining := fun _ hm' => inMode_unique hm hm' ▸ h

/-- The bound is not about ERR. -/
theorem Block.Remaining.reject (h : b.Remaining) (e : ErrCode) : (reject e b).Remaining := h

/-- LAST takes `r` bits of the entropy, which leaves `n - 1` groups (R136, R137). -/
theorem lastStep_remaining (hm : inMode b m) : (lastStep m b).Remaining := by
  have hm' : inMode (lastStep m b) m := by rwa [inMode, lastStep_nwords]
  refine Block.remaining_of_inMode hm' ⟨fun _ => ?_, fun h => absurd h (by simp)⟩
  have hbits : 11 * ((lastStep m b).j.val + 1) + m.r = m.ent := by
    have hj := lastStep_j b m
    have hr := r_add_cs m
    have hent := ent_add_cs m
    omega
  rw [lastStep_limbVal, Nat.div_lt_iff_lt_mul (by positivity), ← pow_add, hbits]
  exact limbVal_lt m b.l

/-- Limbs that denote 0 are 0, those of no use in 12-word mode by item 7 of R38. -/
theorem Block.Inv.limbs_eq_zero (hi : b.Inv) (hm : inMode b m) (h : limbVal m b.l = 0) : b.l = zeroLimbs := by
  have hl : b.l[0] = 0 ∧ b.l[1] = 0 ∧ b.l[2] = 0 ∧ b.l[3] = 0 := by
    cases m
    · obtain ⟨h2, h3, -⟩ := hi.mode12 (inMode_iff.mp hm)
      rw [limbVal_w12] at h
      exact ⟨BitVec.eq_of_toNat_eq (by simp; omega), BitVec.eq_of_toNat_eq (by simp; omega), h2, h3⟩
    · rw [limbVal_w24] at h
      refine ⟨?_, ?_, ?_, ?_⟩ <;> exact BitVec.eq_of_toNat_eq (by simp; omega)
  obtain ⟨h0, h1, h2, h3⟩ := hl
  rw [← Vector.toList_inj, limbs_toList, h0, h1, h2, h3]
  rfl

/-- SLICE takes one group, and the last SLICE the last bits (R138). -/
theorem Block.Remaining.sliceStep (h : b.Remaining) (hi : b.Inv) (hm : inMode b m) (hp : b.phase = .slice) :
    (sliceStep m b).Remaining := by
  obtain ⟨hlt, -⟩ := h m hm
  have hm' : inMode (Machine.sliceStep m b) m := by rwa [inMode, sliceStep_nwords]
  have hval : limbVal m (Machine.sliceStep m b).l < 2 ^ (11 * b.j.val) := by
    rw [sliceStep_limbVal, Nat.div_lt_iff_lt_mul (by positivity), ← pow_add]
    exact hlt hp
  refine Block.remaining_of_inMode hm' ⟨fun hs => ?_, fun hc => (hi.sliceStep hm hp).limbs_eq_zero hm' ?_⟩
  · have h0 : b.j.val ≠ 0 := fun h0 => absurd ((sliceStep_at_zero h0).1.symm.trans hs) (by simp)
    rwa [(sliceStep_counts_down hp h0).2]
  · have h0 : b.j.val = 0 := by
      by_contra h0
      exact absurd ((sliceStep_counts_down hp h0).1.symm.trans hc) (by simp)
    simpa [h0] using hval

theorem Block.Remaining.microStep (h : b.Remaining) (hi : b.Inv) {b' : Block} (hs : microStep b = some b') :
    b'.Remaining := by
  rcases microStep_cases hs with
    ⟨-, rfl⟩ | ⟨m, -, -, rfl⟩ | ⟨m, -, -, rfl⟩ | ⟨m, hm, -, rfl⟩ | ⟨m, hm, hp, rfl⟩ | ⟨-, rfl⟩
  · exact h
  · exact Block.remaining_of_phase (by simp) (by simp)
  · exact Block.remaining_of_phase (by simp) (by simp)
  · exact lastStep_remaining hm
  · exact h.sliceStep hi hm hp
  · exact Block.remaining_of_phase (by simp) (by simp)

theorem Block.Remaining.encodeBlock (h : b.Remaining) (n : BitVec 8) : (encodeBlock n b).Remaining := by
  rcases encodeBlock_cases n b with
    ⟨-, he⟩ | ⟨-, -, he⟩ | ⟨-, hp, -, he⟩ | ⟨m, -, hp, -, -, he⟩ | ⟨m, -, -, he⟩ <;> rw [he]
  · exact h.reject _
  · exact h.reject _
  · exact Block.remaining_of_phase (by simp [hp]) (by simp [hp])
  · exact Block.remaining_of_phase (by simp [hp]) (by simp [hp])
  · exact Block.remaining_of_phase (by simp) (by simp)

theorem Block.Remaining.runCommand (h : b.Remaining) (c : Command) : (runCommand c b).Remaining := by
  cases c with
  | nop => exact h
  | clear => exact Block.remaining_of_phase (b := clearBlock b) (by simp) (by simp)
  | encode n => exact h.encodeBlock n
  | entropyFail => exact Block.remaining_of_phase (b := failBlock b) (by simp) (by simp)
  | badCommand => exact h.reject _

theorem Block.Remaining.entropyBlock (h : b.Remaining) (j : Fin 8) (w : Word) : (entropyBlock j w b).Remaining := by
  rcases entropyBlock_cases j w b with ⟨-, he⟩ | ⟨-, -, he⟩ | ⟨-, hp, he⟩ <;> rw [he]
  · exact h.reject _
  · exact h.reject _
  · exact Block.remaining_of_phase (by simp [hp]) (by simp [hp])

end RemainingBits

/-! ### The schedule of a quiet encoding (R140) -/

section Schedule

variable {b₀ b b' : Block} {m : Mode} {k : Nat}

theorem scheduleAt_slice (hk : k + 1 < m.n) : scheduleAt m (k + 3) = (.slice, m.n - 2 - k) :=
  if_pos (Nat.lt_sub_of_add_lt hk)

theorem scheduleAt_complete (m : Mode) : scheduleAt m (m.n + 2) = (.complete, 0) := by cases m <;> rfl

theorem scheduleAt_end (m : Mode) : scheduleAt m (m.n + 3) = (.idle, 0) := by cases m <;> rfl

/-- The block `b` is `k` micro-steps into the encoding that `b₀` was about to LOAD: where the schedule has it, with the
encoding on its track until it is over, and then with its output. Before LAST, J is as it was. -/
structure Block.OnSchedule (b₀ : Block) (m : Mode) (k : Nat) (b : Block) : Prop where
  phase : b.phase = (scheduleAt m k).1
  j : k < 3 ∧ b.j = b₀.j ∨ b.j.val = (scheduleAt m k).2
  nwords : b.nwords = b₀.nwords
  done : b.done = (b₀.done || k == m.n + 3)
  track : b.phase ≠ .idle → b.ent = b₀.ent ∧ b.Tracks m
  output : b.phase = .idle → b.HoldsGroups m b₀.ent

/-- At LOAD nothing is tracked yet. -/
theorem Block.tracks_of_load (hp : b.phase = .load) : b.Tracks m where
  loaded h := absurd h (by simp [hp])
  summed h := absurd h (by simp [hp])
  sliced h := absurd h (by simp [hp])
  finished h := absurd h (by simp [hp])

theorem Block.onSchedule_zero (hp : b.phase = .load) : b.OnSchedule m 0 b where
  phase := hp
  j := .inl ⟨by decide, rfl⟩
  nwords := rfl
  done := by simp
  track _ := ⟨rfl, b.tracks_of_load hp⟩
  output h := absurd h (by simp [hp])

/-- While the encoding runs on, what is left to see is where the schedule has it and that it is on its track. -/
theorem Block.OnSchedule.runsOn (h : b₀.OnSchedule m k b) (hk : k < m.n + 2) (hrun : b.RunsOn b')
    (hphase : b'.phase = (scheduleAt m (k + 1)).1)
    (hj : k + 1 < 3 ∧ b'.j = b₀.j ∨ b'.j.val = (scheduleAt m (k + 1)).2) (htrack : b'.Tracks m) :
    b₀.OnSchedule m (k + 1) b' := by
  obtain ⟨hp, hp', hn, he, -, hd, -⟩ := hrun
  have hnot : (k == m.n + 3) = false := beq_false_of_ne (by omega)
  have hnot' : (k + 1 == m.n + 3) = false := beq_false_of_ne (by omega)
  exact
    { phase := hphase
      j := hj
      nwords := hn.trans h.nwords
      done := by rw [hd, h.done, hnot, hnot']
      track := fun _ => ⟨he.trans (h.track hp).1, htrack⟩
      output := fun hidle => absurd hidle hp' }

/-- A scheduled SLICE is followed by the next one or by COMPLETE (R138). -/
theorem Block.OnSchedule.sliceStep (h : b₀.OnSchedule m (k + 3) b) (hm : inMode b m) (hk : k + 1 < m.n) :
    b₀.OnSchedule m (k + 4) (sliceStep m b) := by
  have hphase := h.phase
  have hj := h.j.resolve_left (fun h => absurd h.1 (by omega))
  rw [scheduleAt_slice hk] at hphase hj
  have hbusy : b.phase ≠ .idle := by simp [hphase]
  obtain ⟨-, htrack⟩ := h.track hbusy
  obtain ⟨-, -, -, hstep, -⟩ := microStep_of_phase hm
  have hrun := microStep_runsOn (hstep hphase) hbusy (by simp [hphase])
  have htrack' := htrack.sliceStep hphase (by omega)
  by_cases h0 : b.j.val = 0
  · obtain ⟨hp', hj'⟩ := sliceStep_at_zero (m := m) h0
    have hat : scheduleAt m (k + 3 + 1) = (.complete, 0) := by
      rw [show k + 3 + 1 = m.n + 2 by omega, scheduleAt_complete]
    exact h.runsOn (by omega) hrun (by rw [hat, hp']) (.inr (by rw [hat, hj', h0])) htrack'
  · obtain ⟨hp', hj'⟩ := sliceStep_counts_down (m := m) hphase h0
    have hat : scheduleAt m (k + 3 + 1) = (.slice, m.n - 2 - (k + 1)) := scheduleAt_slice (by omega)
    exact h.runsOn (by omega) hrun (by rw [hat, hp']) (.inr (by rw [hat]; omega)) htrack'

/-- COMPLETE ends the schedule (R139). -/
theorem Block.OnSchedule.completeStep (h : b₀.OnSchedule m (m.n + 2) b) :
    b₀.OnSchedule m (m.n + 3) (completeStep b) where
  phase := by rw [scheduleAt_end]; rfl
  j := .inr (by rw [scheduleAt_end]; rfl)
  nwords := h.nwords
  done := by simp
  track h := absurd rfl h
  output _ := by
    have hphase : b.phase = .complete := by rw [h.phase, scheduleAt_complete]
    obtain ⟨hent, htrack⟩ := h.track (by simp [hphase])
    exact hent ▸ htrack.finished hphase

/-- Every micro-step is the one the schedule has next (R140). -/
theorem Block.OnSchedule.microStep (h : b₀.OnSchedule m k b) (hm : inMode b₀ m) (hk : k < m.n + 3) :
    ∃ b', microStep b = some b' ∧ b₀.OnSchedule m (k + 1) b' := by
  have hmode : inMode b m := by rwa [inMode, h.nwords]
  obtain ⟨hload, hchecksum, hlast, hslice, hcomplete⟩ := microStep_of_phase hmode
  match k with
  | 0 =>
    have hp : b.phase = .load := h.phase
    have hrun := microStep_runsOn (hload hp) (by simp [hp]) (by simp [hp])
    exact ⟨_, hload hp, h.runsOn (by omega) hrun rfl (h.j.imp_left fun hj => ⟨by decide, hj.2⟩) (loadStep_tracks m b)⟩
  | 1 =>
    have hp : b.phase = .checksum := h.phase
    have hrun := microStep_runsOn (hchecksum hp) (by simp [hp]) (by simp [hp])
    obtain ⟨-, htrack⟩ := h.track (by simp [hp])
    exact ⟨_, hchecksum hp, h.runsOn (by omega) hrun rfl (h.j.imp_left fun hj => ⟨by decide, hj.2⟩)
      (htrack.checksumStep hp)⟩
  | 2 =>
    have hp : b.phase = .last := h.phase
    have hrun := microStep_runsOn (hlast hp) (by simp [hp]) (by simp [hp])
    obtain ⟨-, htrack⟩ := h.track (by simp [hp])
    have hat : scheduleAt m 3 = (.slice, m.n - 2) := scheduleAt_slice (by cases m <;> decide)
    refine ⟨_, hlast hp, h.runsOn (by cases m <;> decide) hrun (by rw [hat, lastStep_phase]) (.inr ?_)
      (htrack.lastStep hp)⟩
    rw [hat]
    exact Nat.eq_sub_of_add_eq (lastStep_j b m)
  | k + 3 =>
    by_cases hk' : k + 1 < m.n
    · have hp : b.phase = .slice := by rw [h.phase, scheduleAt_slice hk']
      exact ⟨_, hslice hp, h.sliceStep hmode hk'⟩
    · have hend : k + 3 = m.n + 2 := by omega
      rw [hend] at h ⊢
      have hp : b.phase = .complete := by rw [h.phase, scheduleAt_complete]
      exact ⟨_, hcomplete hp, h.completeStep⟩

end Schedule

section QuietRuns

variable {m : Mode} {s t : State}

/-- With no event pending an encoding runs on its schedule (R140). -/
theorem run_onSchedule (he : s.events = []) (hp : s.block.phase = .load) (hm : inMode s.block m) {k : Nat}
    (hk : k ≤ m.n + 3) :
    ∃ t, Sys2Proof.core.run k s = .next t ∧ t.events = [] ∧ s.block.OnSchedule m k t.block := by
  induction k with
  | zero => exact ⟨s, rfl, he, Block.onSchedule_zero hp⟩
  | succ k ih =>
    obtain ⟨u, hrun, hev, h⟩ := ih (Nat.le_of_succ_le hk)
    obtain ⟨b, hb, h'⟩ := h.microStep hm hk
    exact ⟨_, (run_add 1 hrun).trans (run_one (step_seqTurn (.inl hev) hb)), by simp [hev], h'⟩

/-- A quiet encoding that has run its `n + 3` micro-steps has delivered its stream (R141). -/
theorem quietRun_holdsGroups (he : s.events = []) (hp : s.block.phase = .load) (hm : inMode s.block m)
    (hrun : Sys2Proof.core.run (m.n + 3) s = .next t) : t.block.HoldsGroups m s.block.ent := by
  obtain ⟨t', hrun', -, h⟩ := run_onSchedule he hp hm le_rfl
  obtain rfl : t' = t := Host.Outcome.next.inj (hrun'.symm.trans hrun)
  exact h.output (by rw [h.phase, scheduleAt_end])

end QuietRuns

/-! ### An encoding among other events (R112, R141) -/

section Interleavings

/-- `s` runs an encoding of the entropy `ent`, on its track, and no pending event aborts it. -/
structure State.Encoding (m : Mode) (ent : Vector Word 8) (s : State) : Prop where
  inv : s.block.Inv
  busy : s.block.phase ≠ .idle
  mode : inMode s.block m
  ent : s.block.ent = ent
  tracks : s.block.Tracks m
  unaborted : ∀ e ∈ s.events, ¬ aborts e

variable {m : Mode} {ent : Vector Word 8} {s t : State}

/-- A step lets such an encoding run on, or ends it with its output. -/
theorem State.Encoding.step (h : s.Encoding m ent) (hs : step s = .next t) :
    t.Encoding m ent ∨
    (t.block.phase = .idle ∧ t.block.done = true ∧ inMode t.block m ∧ t.block.HoldsGroups m ent) := by
  have hhead : ∀ e, s.events.head? = some e → ¬ aborts e := fun e he => h.unaborted e (List.mem_of_mem_head? he)
  have hrest : ∀ e ∈ t.events, ¬ aborts e := by
    rw [(step_cases hs).1]
    exact fun e he => h.unaborted e (List.mem_of_mem_tail he)
  rcases everyInterleavingKeepsTheBitLayout s t m h.inv h.busy h.mode h.tracks hhead hs with
    ⟨hp, hent, hm, htrack⟩ | hout
  · exact .inl ⟨h.inv.step hs, hp, hm, hent.trans h.ent, htrack, hrest⟩
  · exact .inr (h.ent ▸ hout)

/-- Where it first leaves the block idle, it has ended with its output. -/
theorem State.Encoding.run {k : Nat} (h : s.Encoding m ent)
    (hbusy : ∀ k' ≤ k, ∃ u, Sys2Proof.core.run k' s = .next u ∧ u.block.phase ≠ .idle)
    (hrun : Sys2Proof.core.run (k + 1) s = .next t) (hidle : t.block.phase = .idle) :
    t.block.done = true ∧ inMode t.block m ∧ t.block.HoldsGroups m ent := by
  induction k generalizing s with
  | zero =>
    obtain ⟨u, hu, hrun⟩ := run_succ hrun
    cases hrun
    rcases h.step hu with hon | ⟨-, hout⟩
    · exact absurd hidle hon.busy
    · exact hout
  | succ k ih =>
    obtain ⟨u, hu, hrun⟩ := run_succ hrun
    have hfirst := run_one hu
    rcases h.step hu with hon | ⟨hp, -⟩
    · refine ih hon (fun k' hk' => ?_) hrun
      rw [← run_add k' hfirst, add_comm]
      exact hbusy (k' + 1) (Nat.succ_le_succ hk')
    · obtain ⟨u', hu', hne⟩ := hbusy 1 (by omega)
      obtain rfl : u = u' := Host.Outcome.next.inj (hfirst.symm.trans hu')
      exact absurd hp hne

end Interleavings

/-! ### The obligations -/

/-- Settles O27: the latch is the checksum of the hash of the mode's bytes, as a number. -/
theorem checksumStepHashesExactlyTheEntropy : Obligations.ChecksumStepHashesExactlyTheEntropy := by
  intro s m hturn hp hm
  obtain ⟨-, hstep, -⟩ := microStep_of_phase hm
  refine ⟨_, step_seqTurn hturn (hstep hp), ?_⟩
  cases m
  · have hlt := (hashByte .w12 s.block.ent).isLt
    have hnibble : (chk .w12 (hashByte .w12 s.block.ent)).toNat = (hashByte .w12 s.block.ent).toNat / 16 := by
      simp only [chk, BitVec.toNat_setWidth, BitVec.extractLsb'_toNat, Nat.shiftRight_eq_div_pow]
      omega
    exact hnibble
  · have hall : s.block.ent.toList.take 8 = s.block.ent.toList := List.take_of_length_le (by simp)
    change (Config.hash256 ((s.block.ent.toList.take 8).flatMap wordBytes))[0].toNat = _
    rw [hall]

/-- Settles O28, mode by mode. -/
theorem lastStepWritesTheLastIndex : Obligations.LastStepWritesTheLastIndex := by
  intro s hturn hp
  refine ⟨fun hn => ?_, fun hn => ?_⟩
  · obtain ⟨-, -, hstep, -⟩ := microStep_of_phase (m := .w12) (inMode_iff.mpr hn)
    exact ⟨_, step_seqTurn hturn (hstep hp), lastIndex12_toNat _ _⟩
  · obtain ⟨-, -, hstep, -⟩ := microStep_of_phase (m := .w24) (inMode_iff.mpr hn)
    exact ⟨_, step_seqTurn hturn (hstep hp), lastIndex24_toNat _ _⟩

/-- Settles O29, by what SLICE writes and how it counts. -/
theorem sliceStepCutsOneGroup : Obligations.SliceStepCutsOneGroup := by
  intro s m hturn hp hm
  obtain ⟨-, -, -, hstep, -⟩ := microStep_of_phase hm
  exact ⟨_, step_seqTurn hturn (hstep hp), rfl, rfl, sliceStep_frame m s.block, sliceStep_idx_toNat m s.block,
    sliceStep_at_zero, sliceStep_counts_down hp⟩

/-- Settles O31, by the limbs as one integer. -/
theorem limbShiftIsIntegerShift : Obligations.LimbShiftIsIntegerShift :=
  fun m _ l _ hk => limbVal_shr m hk l

/-- Settles O33, by the schedule of a quiet run; with J = 0 at its start, J is the schedule's before LAST too. -/
theorem encodeTakesExactlyNPlusThreeMicroSteps : Obligations.EncodeTakesExactlyNPlusThreeMicroSteps := by
  intro m s k he hp hj0 hm hk
  obtain ⟨t, hrun, -, h⟩ := run_onSchedule he hp hm hk
  refine ⟨t, hrun, Prod.ext h.phase ?_, h.done⟩
  rcases h.j with ⟨hk3, hj⟩ | hj
  · have hzero : ∀ k < 3, (scheduleAt m k).2 = 0 := by cases m <;> decide
    simp only [hj, hj0, hzero k hk3]
    rfl
  · exact hj

/-- Settles O34, by the end of a quiet run's schedule. -/
theorem encodingFollowsTheBitLayout : Obligations.EncodingFollowsTheBitLayout := by
  intro m s he hp hm
  obtain ⟨t, hrun, -, h⟩ := run_onSchedule he hp hm le_rfl
  have hidle : t.block.phase = .idle := by rw [h.phase, scheduleAt_end]
  exact ⟨t, hrun, by simp [h.done], hidle, h.nwords, h.output hidle⟩

/-- Settles O35: at LOAD nothing is tracked yet, and the track leads to the output. -/
theorem everyUnabortedEncodingDeliversTheBitLayout : Obligations.EveryUnabortedEncodingDeliversTheBitLayout :=
  fun _ s _ _ hi hp hm hno hbusy hrun hidle =>
    State.Encoding.run ⟨hi, by simp [hp], hm, rfl, s.block.tracks_of_load hp, hno⟩ hbusy hrun hidle

/-- Settles O37, by the kinds of step: SLICE takes the group it writes, and outside SLICE and COMPLETE there is nothing
to show. -/
theorem stepKeepsTheRemainingBitsLaw : Obligations.StepKeepsTheRemainingBitsLaw := by
  intro s t hi h hs
  rcases step_block_cases hs with ⟨-, hm⟩ | ⟨r, c, -, -, hb⟩ | ⟨r, j, w, -, -, -, hb⟩ | ⟨r, -, -, hb⟩ | ⟨-, hb⟩
  · exact h.microStep hi hm
  · exact hb ▸ h.runCommand c
  · exact hb ▸ h.entropyBlock j w
  · exact hb ▸ h
  · exact hb ▸ invariantsHoldAtReset.2

/-- Settles O38: they are the first and the last group of the stream. -/
theorem firstAndLastIndexComposition : Obligations.FirstAndLastIndexComposition := by
  intro m s t he hp hm hrun
  have hidx := quietRun_holdsGroups he hp hm hrun
  have h0 : 0 < m.n := by cases m <;> decide
  exact ⟨(hidx 0 h0).trans (group_first m _), fun i hi => (hidx i (by omega)).trans (group_last m _ hi)⟩

/-- Settles O39: the same entropy bytes have the same stream. -/
theorem resultDependsOnEntropyAndModeOnly : Obligations.ResultDependsOnEntropyAndModeOnly := by
  intro m s s' t t' he he' hp hp' hm hm' hbytes hrun hrun' i hi
  refine BitVec.eq_of_toNat_eq ?_
  rw [quietRun_holdsGroups he hp hm hrun i hi, quietRun_holdsGroups he' hp' hm' hrun' i hi, stream_congr hbytes]

/-- Settles O40: the indices spell the stream, which is the entropy over its checksum. -/
theorem entropyIsRecoveredFromIndices : Obligations.EntropyIsRecoveredFromIndices := by
  intro m s t he hp hm hrun
  rw [(quietRun_holdsGroups he hp hm hrun).recombine_idx]
  exact ⟨stream_div_cs m _, stream_mod_cs m _⟩

/-- Settles O41: the two entropies differ in `bit`, which is bit `(bit + CS) % 11` of its group, above the checksum. -/
theorem flippedEntropyBitChangesItsIndex : Obligations.FlippedEntropyBitChangesItsIndex := by
  intro m s s' t t' bit i he he' hp hp' hm hm' hbit hflip hrun hrun' hi heq
  have hent := ent_add_cs m
  have hlt : i.val < m.n := by omega
  have hbitOf : ∀ ent, (group m (stream m ent) i.val).testBit ((bit + m.cs) % 11) = (entropyVal m ent).testBit bit :=
    fun ent => by
      rw [group_testBit m _ _ (Nat.mod_lt _ (by decide)), ← stream_testBit_cs_add]
      congr 1
      omega
  have hsame : (entropyVal m s.block.ent).testBit bit = (entropyVal m s'.block.ent).testBit bit := by
    rw [← hbitOf, ← hbitOf, ← quietRun_holdsGroups he hp hm hrun i hlt,
      ← quietRun_holdsGroups he' hp' hm' hrun' i hlt, heq]
  have hdiffer := congrArg (Nat.testBit · bit) hflip
  simp [hsame] at hdiffer

/-- Settles O44, by what may be pending: a turn has its micro-step, and a transaction is always answered. -/
theorem machineIsNeverStuck : Obligations.MachineIsNeverStuck := by
  intro s hi
  obtain ⟨b, hb⟩ := hi.microStep_isSome
  match hev : s.events with
  | [] => exact ⟨_, step_seqTurn (.inl hev) hb⟩
  | .seq :: _ => exact ⟨_, step_seqTurn (.inr (by rw [hev]; rfl)) hb⟩
  | .host r :: rest =>
    obtain ⟨t, ht, -⟩ := runHost_cases r (s.setEvents rest)
    exact ⟨t, (step_host hev).trans ht⟩
  | .rst :: _ => exact ⟨_, step_rst hev⟩

/-- Settles O26, mode by mode: the limbs are the registers in pairs. -/
theorem loadStepFillsTheLimbs : Obligations.LoadStepFillsTheLimbs := by
  intro s m hturn hp hm
  obtain ⟨hstep, -⟩ := microStep_of_phase hm
  rw [step_seqTurn hturn (hstep hp)]
  cases m <;> rfl

/-- Settles O30: COMPLETE's next block is written out in its meaning, and it reads no mode. -/
theorem completeStepDeliversAndScrubs : Obligations.CompleteStepDeliversAndScrubs := by
  intro s hturn hp
  have hstep : microStep s.block = some (completeStep s.block) := by simp only [microStep, hp]
  exact step_seqTurn hturn hstep

end Sys2Proof.Machine

/-! ## The word-list ROM (42_word_rom.md) -/

namespace Sys2Proof.Machine

/-! ### The word of a slot (R171, R175) -/

section Words

variable {s t : Slot} {wl : Fin 2048 → Slot}

/-- A well-formed slot is a word of bytes above the space and then its padding (R171 items 1, 2). -/
theorem slotWf_toList (h : slotWf s) : ∃ w : List Byte, w ≠ [] ∧ (∀ c ∈ w, 0x21#8 ≤ c) ∧
    s.toList = w ++ List.replicate (16 - w.length) 0 := by
  obtain ⟨len, hpos, hle, hbyte⟩ := h
  have hlen : (s.toList.take len).length = len := by simpa using hle
  have hpad : s.toList.drop len = List.replicate (16 - len) 0 := by
    refine List.eq_replicate_iff.mpr ⟨by simp, fun c hc => ?_⟩
    obtain ⟨k, hk, rfl⟩ := List.mem_drop_iff_getElem.mp hc
    have hzero := hbyte ⟨len + k, by simpa [Nat.add_comm] using hk⟩
    rwa [if_neg (by simp)] at hzero
  refine ⟨s.toList.take len, List.ne_nil_of_length_pos (by omega), fun c hc => ?_, ?_⟩
  · obtain ⟨k, hk, rfl⟩ := List.mem_take_iff_getElem.mp hc
    have hprint := hbyte ⟨k, by omega⟩
    rw [if_pos (lt_min_iff.mp hk).1] at hprint
    exact hprint.1
  · rw [hlen, ← hpad, List.take_append_drop]

/-- The word ends at the first `0x00` (R175). -/
theorem slotWord_of_toList {w : List Byte} {k : Nat} (h : s.toList = w ++ List.replicate k 0)
    (hw : ∀ c ∈ w, 0x21#8 ≤ c) : slotWord s = w := by
  have hne : ∀ c ∈ w, (c != 0) = true := fun c hc =>
    bne_iff_ne.mpr fun h0 => absurd (h0 ▸ hw c hc) (by decide)
  rw [slotWord, h, List.takeWhile_append_of_pos hne]
  simp

/-- In a well-formed slot the word is the bytes of R171 item 1, and the rest is the padding. -/
theorem slotWord_spec (h : slotWf s) : slotWord s ≠ [] ∧ (∀ c ∈ slotWord s, 0x21#8 ≤ c) ∧
    s.toList = slotWord s ++ List.replicate (16 - (slotWord s).length) 0 := by
  obtain ⟨w, hne, hw, hs⟩ := slotWf_toList h
  rw [slotWord_of_toList hs hw]
  exact ⟨hne, hw, hs⟩

theorem slotWord_ne_nil (h : slotWf s) : slotWord s ≠ [] := (slotWord_spec h).1

theorem space_not_mem_slotWord (h : slotWf s) : 0x20#8 ∉ slotWord s :=
  fun hmem => absurd ((slotWord_spec h).2.1 _ hmem) (by decide)

/-- The padding is fixed, so the word of a well-formed slot is all of it. -/
theorem slotWord_inj (hs : slotWf s) (ht : slotWf t) (h : slotWord s = slotWord t) : s = t := by
  rw [← Vector.toList_inj, (slotWord_spec hs).2.2, (slotWord_spec ht).2.2, h]

/-- Distinct indices have distinct words (R171 item 3), so the words determine the indices. -/
theorem wordsOf_injective (h : wordlistWf wl) : Function.Injective (wordsOf wl) := by
  obtain ⟨hslot, hdistinct⟩ := h
  refine List.map_injective_iff.mpr fun i j hij => ?_
  exact BitVec.toFin_inj.mp (hdistinct _ _ (slotWord_inj (hslot _) (hslot _) hij))

/-! ### The text as its words and spaces (R176, R178) -/

theorem textOf_singleton (wl : Fin 2048 → Slot) (i : Index) : textOf wl [i] = slotWord (wl i.toFin) :=
  List.intercalate_singleton

theorem textOf_cons_cons (wl : Fin 2048 → Slot) (i j : Index) (is : List Index) :
    textOf wl (i :: j :: is) = slotWord (wl i.toFin) ++ [0x20] ++ textOf wl (j :: is) :=
  List.intercalate_cons_cons

theorem textOf_eq_nil_iff (h : wordlistWf wl) {is : List Index} : textOf wl is = [] ↔ is = [] := by
  match is with
  | [] => simp [textOf, wordsOf]
  | [i] => simp [textOf_singleton, slotWord_ne_nil (h.1 i.toFin)]
  | i :: j :: is => simp [textOf_cons_cons]

/-- No word holds a space, so the text splits at its spaces into its words. -/
theorem splitOn_textOf (h : wordlistWf wl) {is : List Index} (hne : is ≠ []) :
    (textOf wl is).splitOn 0x20 = wordsOf wl is := by
  refine List.splitOn_intercalate _ (fun w hw => ?_) (by simpa [wordsOf] using hne)
  obtain ⟨i, -, rfl⟩ := List.mem_map.mp hw
  exact space_not_mem_slotWord (h.1 i.toFin)

end Words

/-! ### The obligations -/

/-- Settles O55: the text splits into its words at its spaces, and the words determine the indices. -/
theorem textDeterminesTheIndices : Obligations.TextDeterminesTheIndices := by
  intro wl is js h htext
  by_cases his : is = []
  · subst his
    exact ((textOf_eq_nil_iff h).mp (htext.symm.trans ((textOf_eq_nil_iff h).mpr rfl))).symm
  · have hjs : js ≠ [] := by rwa [Ne, ← textOf_eq_nil_iff h, ← htext, textOf_eq_nil_iff h]
    exact wordsOf_injective h (by rw [← splitOn_textOf h his, htext, splitOn_textOf h hjs])

/-- Settles O54, by induction on the indices: each index after the first adds its word and one space. -/
theorem textLengthLaw : Obligations.TextLengthLaw := by
  intro wl is hne
  induction is with
  | nil => exact absurd rfl hne
  | cons i is ih =>
    cases is with
    | nil => simp [textOf_singleton, wordsOf]
    | cons j is =>
      rw [textOf_cons_cons, List.length_append, ih (by simp)]
      simp [wordsOf]
      omega

/-- Settles O53: `NWORDS` is the mode's `n`, at most the 24 positions there are. -/
theorem outputIsNWordsOfTheWordList : Obligations.OutputIsNWordsOfTheWordList := by
  intro b m hm
  refine ⟨?_, fun w hw => ?_⟩
  · simp [words, wordsOf, outputs, nwords_toNat_of_inMode hm, words_lt m]
  · obtain ⟨i, -, rfl⟩ := List.mem_map.mp hw
    exact ⟨i.toFin, rfl⟩

end Sys2Proof.Machine

/-! ## Exceptions, interrupts and host scheduling (60_exceptions.md) -/

namespace Sys2Proof.Machine

/-! ### A locked block (R205) -/

section Locked

/-- The block has an entropy failure reported to it (FATAL), and no reset is pending. -/
structure State.Locked (s : State) : Prop where
  inv : s.block.Inv
  fatal : s.block.fatal = true
  noReset : Event.rst ∉ s.events

variable {s t : State}

/-- A step that meets no reset leaves a block locked: nothing else clears FATAL, and events are only taken. -/
theorem State.Locked.step (h : s.Locked) (hs : step s = .next t) : t.Locked where
  inv := h.inv.step hs
  fatal := by
    by_contra hne
    rcases fatalIsSetByFailureAndClearedByResetOnly s t hs (fun heq => hne (heq ▸ h.fatal)) with ⟨-, hr⟩ | ⟨hf, -⟩
    · exact h.noReset (List.mem_of_mem_head? hr)
    · exact hne hf
  noReset hr := by
    rw [(step_cases hs).1] at hr
    exact h.noReset (List.mem_of_mem_tail hr)

end Locked

/-! ### A turn of the sequencer on an idle block (R130, R220) -/

theorem microStep_of_idle {b : Block} (hp : b.phase = .idle) : microStep b = some b := by
  simp only [microStep, hp]

/-! ### Steps of a system of instances (R218) -/

section Instances

variable {k : Nat} {sys : List State}

/-- A number beyond the system moves nothing. -/
theorem stepInstance_of_none (hk : sys[k]? = none) : stepInstance k sys = .next sys := by
  simp only [stepInstance, hk]

/-- A step of block `k` replaces its state in the system. -/
theorem stepInstance_of_step {s t : State} (hk : sys[k]? = some s) (hs : step s = .next t) :
    stepInstance k sys = .next (sys.set k t) := by
  simp only [stepInstance, hk, hs]

/-- If the step of `k` goes on, the system has no block `k`, or it holds block `k` after a step of its own. -/
theorem stepInstance_cases {sys' : List State} (h : stepInstance k sys = .next sys') :
    (sys[k]? = none ∧ sys' = sys) ∨ (∃ s t, sys[k]? = some s ∧ step s = .next t ∧ sys' = sys.set k t) := by
  cases hk : sys[k]? with
  | none =>
    rw [stepInstance_of_none hk] at h
    exact .inl ⟨rfl, (Host.Outcome.next.inj h).symm⟩
  | some s =>
    cases hs : step s with
    | next t =>
      rw [stepInstance_of_step hk hs] at h
      exact .inr ⟨s, t, rfl, hs, (Host.Outcome.next.inj h).symm⟩
    | fault f => simp [stepInstance, hk, hs] at h
    | refused r => simp [stepInstance, hk, hs] at h

theorem stepInstance_length {sys' : List State} (h : stepInstance k sys = .next sys') : sys'.length = sys.length := by
  rcases stepInstance_cases h with ⟨-, rfl⟩ | ⟨s, t, -, -, rfl⟩
  · rfl
  · exact List.length_set

/-- The other instances keep their states. -/
theorem stepInstance_getElem?_of_ne {sys' : List State} (h : stepInstance k sys = .next sys') {i : Nat} (hi : i ≠ k) :
    sys'[i]? = sys[i]? := by
  rcases stepInstance_cases h with ⟨-, rfl⟩ | ⟨s, t, -, -, rfl⟩
  · rfl
  · exact List.getElem?_set_ne hi.symm

/-- Steps of two instances lead to the same system in either order. -/
theorem stepInstance_comm {i : Nat} (hi : i ≠ k) {sys' a b : List State} (hk : stepInstance k sys = .next sys')
    (ha : stepInstance i sys = .next a) (hb : stepInstance i sys' = .next b) : stepInstance k a = .next b := by
  have hki : a[k]? = sys[k]? := stepInstance_getElem?_of_ne ha hi.symm
  rcases stepInstance_cases hk with ⟨hnone, rfl⟩ | ⟨s, t, hsome, hs, rfl⟩
  · obtain rfl : a = b := Host.Outcome.next.inj (ha.symm.trans hb)
    exact stepInstance_of_none (hki.trans hnone)
  · rw [stepInstance_of_step (hki.trans hsome) hs]
    have hik : (sys.set k t)[i]? = sys[i]? := List.getElem?_set_ne hi.symm
    rcases stepInstance_cases ha with ⟨hnone, rfl⟩ | ⟨u, v, hsome', hu, rfl⟩
    · exact (stepInstance_of_none (hik.trans hnone)).symm.trans hb
    · rw [List.set_comm _ _ hi]
      exact (stepInstance_of_step (hik.trans hsome') hu).symm.trans hb

end Instances

/-! ### The obligations -/

/-- Settles O48: a locked block stays locked along the run, and locked it has no output and does not run (R38 item 4). -/
theorem noOutputAfterEntropyFailureUntilReset : Obligations.NoOutputAfterEntropyFailureUntilReset := by
  intro s t k hi hf hno hrun
  have ht : t.Locked := run_keeps (fun _ _ h hs => h.step hs) k s t ⟨hi, hf, hno⟩ hrun
  obtain ⟨hd, -, -, -, hp⟩ := ht.inv.fatalClean ht.fatal
  exact ⟨ht.fatal, hd, hp⟩

/-- Settles O12: the step is a turn of the sequencer, which in PHASE IDLE gives the block itself. -/
theorem idleBlockKeepsItsState : Obligations.IdleBlockKeepsItsState := by
  rintro ⟨b, _, rs⟩ rfl hp
  exact step_seqTurn (.inl rfl) (microStep_of_idle hp)

/-- Settles O56, by what the step of `k` does to the list of states. -/
theorem instancesAreIndependent : Obligations.InstancesAreIndependent :=
  fun _ _ _ hk => ⟨stepInstance_length hk, fun _ hi => stepInstance_getElem?_of_ne hk hi,
    fun _ _ _ hi ha hb => stepInstance_comm hi hk ha hb⟩

end Sys2Proof.Machine

/-! ## Reset and hazards (70_reset_and_hazards.md) -/

namespace Sys2Proof.Machine

/-! ### The reset block (R37, R232) -/

theorem statusWord_reset : statusWord Block.reset = 0 := by decide

/-- After reset an ENCODE lacks its entropy, and there is no output for it to clear. -/
theorem encodeBlock_reset (m : Mode) : encodeBlock m.words Block.reset = reject .entropyLength Block.reset :=
  encodeBlock_of_wrongMask rfl rfl (by cases m <;> decide)

/-! ### Reads without a valid output (R110, R111) -/

section NoOutput

variable {s : State} {p : Fin 24} {i : Instr}

/-- Without a valid output an index read gets BUSERR. -/
theorem exec_rdIdx_of_not_done (hd : s.block.done = false) (hi : i = .rdIdxLo p ∨ i = .rdIdxHi p) :
    exec i s = .next (s.respond readBusErr) := by
  rw [exec_rdIdx hi, readOutput_of_not_valid (.inl hd)]

/-- Without a valid output a word read gets BUSERR. -/
theorem exec_rdWord_of_not_done {q : Fin 4} (hd : s.block.done = false) (hi : i = .rdWordLo p q ∨ i = .rdWordHi p q) :
    exec i s = .next (s.respond readBusErr) := by
  rw [exec_rdWord hi, readOutput_of_not_valid (.inl hd)]

end NoOutput

/-! ### A valid output (R237) -/

section Output

/-- The block `b'` has the output of `b`: the same indices, as many, and as valid, with PHASE as it was. -/
structure Block.SameOutput (b b' : Block) : Prop where
  done : b'.done = b.done
  phase : b'.phase = b.phase
  nwords : b'.nwords = b.nwords
  idx : b'.idx = b.idx

variable {b : Block}

/-- A command that is none of the three that R237 names keeps the output. -/
theorem runCommand_sameOutput {c : Command} (hclear : c ≠ .clear) (hfail : c ≠ .entropyFail)
    (hencode : ∀ n, c ≠ .encode n) : b.SameOutput (runCommand c b) := by
  cases c with
  | nop => exact ⟨rfl, rfl, rfl, rfl⟩
  | clear => exact absurd rfl hclear
  | encode n => exact absurd rfl (hencode n)
  | entropyFail => exact absurd rfl hfail
  | badCommand => exact ⟨rfl, rfl, rfl, rfl⟩

/-- An entropy write, stored or rejected, keeps the output (R100). -/
theorem entropyBlock_sameOutput (j : Fin 8) (w : Word) : b.SameOutput (entropyBlock j w b) := by
  rcases entropyBlock_cases j w b with ⟨-, h⟩ | ⟨-, -, h⟩ | ⟨-, -, h⟩
  all_goals exact h ▸ ⟨rfl, rfl, rfl, rfl⟩

end Output

/-! ### The micro-steps a running encoding has left (R140) -/

section StepsLeft

variable {b b' : Block} {m : Mode}

/-- The micro-steps from `b` to the end of its encoding in mode `m`, read off PHASE and J. -/
def Block.stepsLeft (m : Mode) (b : Block) : Nat :=
  match b.phase with
  | .idle => 0
  | .load => m.n + 3
  | .checksum => m.n + 2
  | .last => m.n + 1
  | .slice => b.j.val + 2
  | .complete => 1

theorem Block.stepsLeft_of_slice (hp : b.phase = .slice) : b.stepsLeft m = b.j.val + 2 := by
  simp only [stepsLeft, hp]

theorem Block.stepsLeft_of_complete (hp : b.phase = .complete) : b.stepsLeft m = 1 := by
  simp only [stepsLeft, hp]

/-- SLICE is one of them, whether it counts J down or is the last SLICE (R138). -/
theorem sliceStep_stepsLeft (hp : b.phase = .slice) : (sliceStep m b).stepsLeft m + 1 = b.stepsLeft m := by
  rw [Block.stepsLeft_of_slice hp]
  by_cases h0 : b.j.val = 0
  · obtain ⟨hphase, -⟩ := sliceStep_at_zero (m := m) h0
    rw [Block.stepsLeft_of_complete hphase, h0]
  · obtain ⟨hphase, hj⟩ := sliceStep_counts_down (m := m) hp h0
    rw [Block.stepsLeft_of_slice hphase]
    omega

/-- Every micro-step of a running encoding is one of them. -/
theorem microStep_stepsLeft (hs : microStep b = some b') (hp : b.phase ≠ .idle) (hm : inMode b m) :
    b'.stepsLeft m + 1 = b.stepsLeft m := by
  rcases microStep_cases hs with
    ⟨hidle, -⟩ | ⟨m', -, hphase, rfl⟩ | ⟨m', -, hphase, rfl⟩ | ⟨m', hm', hphase, rfl⟩ |
    ⟨m', hm', hphase, rfl⟩ | ⟨hphase, rfl⟩
  · exact absurd hidle hp
  · simp [Block.stepsLeft, hphase]
  · simp [Block.stepsLeft, hphase]
  · obtain rfl := inMode_unique hm hm'
    rw [Block.stepsLeft_of_slice (lastStep_phase b m), lastStep_j]
    simp only [Block.stepsLeft, hphase]
  · obtain rfl := inMode_unique hm hm'
    exact sliceStep_stepsLeft hphase
  · rw [Block.stepsLeft_of_complete hphase]
    rfl

/-- There are at most the `n + 3` of a whole encoding. -/
theorem Block.Inv.stepsLeft_le (hi : b.Inv) (hm : inMode b m) : b.stepsLeft m ≤ m.n + 3 := by
  cases hp : b.phase
  case slice =>
    have hj : b.j.val + 2 ≤ m.n := nwords_toNat_of_inMode hm ▸ hi.jInSlice hp
    rw [Block.stepsLeft_of_slice hp]
    omega
  all_goals simp [Block.stepsLeft, hp]

end StepsLeft

/-! ### A running encoding completes (R239) -/

section Completion

/-- `s` runs an encoding of mode `m`, wherever it stands, and no pending event aborts it. -/
structure State.Running (m : Mode) (s : State) : Prop where
  inv : s.block.Inv
  busy : s.block.phase ≠ .idle
  mode : inMode s.block m
  unaborted : ∀ e ∈ s.events, ¬ aborts e

/-- The output of an encoding of mode `m` is valid. -/
def Block.Delivered (m : Mode) (b : Block) : Prop := b.done = true ∧ b.phase = .idle ∧ inMode b m

/-- The pending events and the micro-steps left: every step of a running encoding takes one of the two or both. -/
def State.workLeft (m : Mode) (s : State) : Nat := s.events.length + s.block.stepsLeft m

variable {m : Mode} {s t : State}

/-- A micro-step lets an encoding run on in its mode, or is COMPLETE and delivers. -/
theorem microStep_runsOn_or_delivers {b b' : Block} (hs : microStep b = some b') (hp : b.phase ≠ .idle)
    (hm : inMode b m) : (b'.phase ≠ .idle ∧ inMode b' m) ∨ b'.Delivered m := by
  by_cases hc : b.phase = .complete
  · obtain ⟨-, -, -, -, hcomplete⟩ := microStep_of_phase hm
    obtain rfl := Option.some.inj ((hcomplete hc).symm.trans hs)
    exact .inr ⟨rfl, rfl, hm⟩
  · have hrun := microStep_runsOn hs hp hc
    exact .inl ⟨hrun.phase', by rwa [inMode, hrun.nwords]⟩

/-- Where no event aborts, the step takes some of the work and lets the encoding run on or delivers its output. -/
theorem State.Running.step (h : s.Running m) (hs : step s = .next t) :
    t.workLeft m < s.workLeft m ∧ (t.Running m ∨ t.block.Delivered m) := by
  obtain ⟨hev, hkind⟩ := step_cases hs
  have hrest : ∀ e ∈ t.events, ¬ aborts e := fun e he => h.unaborted e (List.mem_of_mem_tail (hev ▸ he))
  have hlen : t.events.length = s.events.length - 1 := by rw [hev, List.length_tail]
  rcases hkind with ⟨-, hmicro, -⟩ | ⟨r, hr, hrun⟩ | ⟨hr, -, -⟩
  · have hleft := microStep_stepsLeft hmicro h.busy h.mode
    refine ⟨by simp only [workLeft]; omega, (microStep_runsOn_or_delivers hmicro h.busy h.mode).imp_left ?_⟩
    exact fun ⟨hp, hm⟩ => ⟨h.inv.step hs, hp, hm, hrest⟩
  · have hmem := List.mem_of_mem_head? hr
    obtain ⟨t', ht', e, he⟩ :=
      runHost_changes_err_only (s := s.setEvents s.events.tail) h.busy (h.unaborted _ hmem)
    obtain rfl : t' = t := Host.Outcome.next.inj (ht'.symm.trans hrun)
    have hleft : t'.block.stepsLeft m = s.block.stepsLeft m := by rw [he]; rfl
    have hpos := List.length_pos_of_mem hmem
    refine ⟨by simp only [workLeft]; omega, .inl ⟨h.inv.step hs, ?_, ?_, hrest⟩⟩
    · rw [he]
      exact h.busy
    · rw [he]
      exact h.mode
  · exact absurd trivial (h.unaborted _ (List.mem_of_mem_head? hr))

/-- By induction on the work left: as no step is refused, the encoding delivers before the work runs out. -/
theorem State.Running.delivers (h : s.Running m) :
    ∃ k t, k ≤ s.workLeft m ∧ Sys2Proof.core.run k s = .next t ∧ t.block.Delivered m := by
  induction hw : s.workLeft m using Nat.strong_induction_on generalizing s with
  | _ w ih =>
    obtain ⟨u, hu⟩ := machineIsNeverStuck s h.inv
    obtain ⟨hlt, hon | hout⟩ := h.step hu
    · obtain ⟨k, t, hk, hrun, hout⟩ := ih _ (hw ▸ hlt) hon rfl
      exact ⟨1 + k, t, by omega, (run_add k (run_one hu)).trans hrun, hout⟩
    · exact ⟨1, u, by omega, run_one hu, hout⟩

end Completion

/-! ### The obligations -/

/-- Settles O45: a running encoding delivers within the work it has left, which is the pending events and at most
`n + 3` micro-steps. -/
theorem acceptedEncodingCompletes : Obligations.AcceptedEncodingCompletes := by
  intro s m hi hp hm hno
  obtain ⟨k, t, hk, hrun, hout⟩ := State.Running.delivers ⟨hi, hp, hm, hno⟩
  exact ⟨k, t, hk.trans (Nat.add_le_add_left (hi.stepsLeft_le hm) _), hrun, hout⟩

/-- Settles O50, by the kinds of step: the sequencer rests in PHASE IDLE, and what the host may do keeps the output. -/
theorem validOutputStaysUntilReplaced : Obligations.ValidOutputStaysUntilReplaced := by
  intro s t hd hp hno hnoEncode hs
  have hsame : s.block.SameOutput t.block := by
    rcases step_block_cases hs with ⟨-, hm⟩ | ⟨r, c, hr, hc, hb⟩ | ⟨r, j, w, -, -, -, hb⟩ | ⟨r, -, -, hb⟩ | ⟨hr, -⟩
    · rw [microStep_of_idle hp] at hm
      exact Option.some.inj hm ▸ ⟨rfl, rfl, rfl, rfl⟩
    · exact hb ▸ runCommand_sameOutput (fun h => hno _ hr (.inl (h ▸ hc))) (fun h => hno _ hr (.inr (h ▸ hc)))
        (fun n h => hnoEncode r n hr (h ▸ hc))
    · exact hb ▸ entropyBlock_sameOutput j w
    · exact hb ▸ ⟨rfl, rfl, rfl, rfl⟩
    · exact absurd trivial (hno _ hr)
  exact ⟨hsame.done.trans hd, hsame.phase.trans hp, hsame.nwords, hsame.idx⟩

/-- Settles O10: the reset leaves `Block.reset`, whose elements are zero. -/
theorem resetEventRestoresEveryElement : Obligations.ResetEventRestoresEveryElement := by
  intro s rest h
  exact ⟨_, step_rst h, rfl, rfl, zeroEnt_getElem, rfl, rfl, rfl, rfl, fun i => by simp [Block.reset], rfl,
    zeroIdx_getElem, rfl, rfl, rfl, statusWord_reset, rfl⟩

/-- Settles O11, by the STATUS, the reads and the ENCODE of the reset block. -/
theorem stateAfterReset : Obligations.StateAfterReset := by
  intro s hs
  change s.block = Block.reset at hs
  have hd : s.block.done = false := by rw [hs]; rfl
  refine ⟨by rw [hs]; rfl, ?_, fun i => ⟨?_, ?_, fun q => ⟨?_, ?_⟩⟩, fun m => ⟨_, rfl, ?_⟩⟩
  · have hstatus : statusWord s.block = 0 := by rw [hs, statusWord_reset]
    change finishRead (readOkay (statusWord s.block)) s = _
    rw [hstatus]
    rfl
  · exact exec_rdIdx_of_not_done hd (.inl rfl)
  · exact exec_rdIdx_of_not_done hd (.inr rfl)
  · exact exec_rdWord_of_not_done hd (.inl rfl)
  · exact exec_rdWord_of_not_done hd (.inr rfl)
  · change encodeBlock m.words s.block = reject .entropyLength s.block
    rw [hs, encodeBlock_reset]

end Sys2Proof.Machine
